-- ==== Sys2Proof/Word.lean ====
section
/-! DEFINITION. The word types of the machine (00_scope.md R4, R6): every value is an unsigned bit vector of a fixed width. -/

namespace Sys2Proof

/-- `u8`: one byte of memory or of the sink. -/
abbrev Byte := BitVec 8

/-- `u64`: a register value, an address, the program counter. -/
abbrev Word := BitVec 64

/-- `u32`: a fetched instruction (30_encoding.md R50). -/
abbrev InstrWord := BitVec 32

/-- A 5-bit register field: one of the registers 0 to 31 (30_encoding.md R51). -/
abbrev Reg := BitVec 5

end Sys2Proof
end

