-- ==== Sys2Proof/Syntax.lean ====
section
/-! DEFINITION. The instruction set as syntax: one constructor per row of spec/opcode_table.json (00_scope.md R1), with the
operands of the assembler syntax (30_encoding.md R62). -/

namespace Sys2Proof

/-- The four instructions. -/
inductive Instr where
  /-- ADDI rd, rs1, imm: `imm` is the 12-bit field instr[31:20] (R52). -/
  | addi (rd rs1 : Reg) (imm : BitVec 12)
  /-- LUI rd, imm20: `imm` is the 20-bit field instr[31:12] itself, not shifted (R53). -/
  | lui (rd : Reg) (imm : BitVec 20)
  /-- JAL rd, offset: `offset` is the 21-bit byte offset from the JAL's own address, even (R54, R58). -/
  | jal (rd : Reg) (offset : BitVec 21)
  /-- ECALL: no operand in the word; its operands are the registers 10, 11, 12 and 17 (R55, R111). -/
  | ecall
deriving DecidableEq, Repr

end Sys2Proof
end

