-- ==== Sys2Proof/WellFormed.lean ====
section
/-! DEFINITION. Which instructions have an encoding: the field widths are in the types, and the one remaining check is that
a JAL offset is even (30_encoding.md R58: bit 0 of the J-immediate is always 0). -/

namespace Sys2Proof

/-- `i.wellFormed` holds exactly when some word encodes `i`. -/
def Instr.wellFormed : Instr → Bool
  | .addi _ _ _ => true
  | .lui _ _ => true
  | .jal _ offset => offset.getLsbD 0 == false
  | .ecall => true

/-- The same as a proposition, for hypotheses. -/
abbrev Instr.WellFormed (i : Instr) : Prop := i.wellFormed = true

end Sys2Proof
end

