-- ==== Sys2Proof/Decode.lean ====
section
/-! DEFINITION. The decoder, total on every word and on any bytes, rejecting by name (30_encoding.md R50 to R60), then the
encoder written from the same encoding tables (R52 to R55). -/

namespace Sys2Proof

/-- Why bytes are no instruction. -/
inductive Unhandled where
  /-- The low seven bits are none of 0x13, 0x37, 0x6f, 0x73 (R60). -/
  | opcode (op : BitVec 7)
  /-- Opcode 0x13 with a function-select field other than 0 (R60, R92). -/
  | opImmFunct3 (f3 : BitVec 3)
  /-- Fewer than four bytes: no whole word (R50). -/
  | shortWord (bytes : Nat)
deriving DecidableEq, Repr

/-- What a word decodes to: an instruction, or `Unhandled` with its reason (R59). -/
inductive Decoded where
  | instr (i : Instr)
  | unhandled (why : Unhandled)
deriving DecidableEq, Repr

/-! The fields, each by fixed bit position (R51). -/

/-- `instr[6:0]`. -/
def opcodeOf (w : InstrWord) : BitVec 7 := w.extractLsb' 0 7

/-- `instr[11:7]`. -/
def rdOf (w : InstrWord) : Reg := w.extractLsb' 7 5

/-- `instr[14:12]`, the function-select field. -/
def funct3Of (w : InstrWord) : BitVec 3 := w.extractLsb' 12 3

/-- `instr[19:15]`. -/
def rs1Of (w : InstrWord) : Reg := w.extractLsb' 15 5

/-- `instr[31:20]`. -/
def imm12Of (w : InstrWord) : BitVec 12 := w.extractLsb' 20 12

/-- `instr[31:12]`. -/
def imm20Of (w : InstrWord) : BitVec 20 := w.extractLsb' 12 20

/-- `instr[31] ++ instr[19:12] ++ instr[20] ++ instr[30:21] ++ 0b0` (R54, R58). -/
def offset21Of (w : InstrWord) : BitVec 21 :=
  w.extractLsb' 31 1 ++ w.extractLsb' 12 8 ++ w.extractLsb' 20 1 ++ w.extractLsb' 21 10 ++ 0#1

/-- The decode procedure of R59, in its order. -/
def decode (w : InstrWord) : Decoded :=
  if opcodeOf w = 0x13#7 then
    if funct3Of w = 0#3 then .instr (.addi (rdOf w) (rs1Of w) (imm12Of w))
    else .unhandled (.opImmFunct3 (funct3Of w))
  else if opcodeOf w = 0x37#7 then .instr (.lui (rdOf w) (imm20Of w))
  else if opcodeOf w = 0x6F#7 then .instr (.jal (rdOf w) (offset21Of w))
  else if opcodeOf w = 0x73#7 then .instr .ecall
  else .unhandled (.opcode (opcodeOf w))

/-- Four bytes, the one at the lowest address first, as a little-endian word (20_memory.md R36, R40). -/
def wordOfBytes (b0 b1 b2 b3 : Byte) : InstrWord := b3 ++ b2 ++ b1 ++ b0

/-- The four bytes of a word in memory order (20_memory.md R37). -/
def bytesOfWord (w : InstrWord) : List Byte :=
  [w.extractLsb' 0 8, w.extractLsb' 8 8, w.extractLsb' 16 8, w.extractLsb' 24 8]

/-- The instruction at the front of a byte sequence; fewer than four bytes are rejected by name. -/
def decodeBytes : List Byte → Decoded
  | b0 :: b1 :: b2 :: b3 :: _ => decode (wordOfBytes b0 b1 b2 b3)
  | bs => .unhandled (.shortWord bs.length)

/-- The instruction word whose low `nbits` bits are those of `w` and whose other bits are 0 (every instruction is one
32-bit word, so bits of `w` above 31 name nothing). -/
def tableWord (nbits w : Nat) : InstrWord := BitVec.ofNat 32 (w % 2 ^ nbits)

/-- What the decoder reads from an instruction whose bits are `w`, numbered as spec/opcode_table.json numbers them. -/
def decodeTableWord (nbits w : Nat) : Option Instr :=
  match decodeBytes (bytesOfWord (tableWord nbits w)) with
  | .instr i => some i
  | .unhandled _ => none

/-- One row of the table of R59: a word `w` is the row's instruction exactly when `w &&& mask = pattern`. -/
structure OpcodeRow where
  mnemonic : String
  mask : InstrWord
  pattern : InstrWord
deriving DecidableEq, Repr

/-- The four rows of R59 and of spec/opcode_table.json. -/
def opcodeTable : List OpcodeRow :=
  [⟨"ADDI", 0x0000707F#32, 0x00000013#32⟩,
   ⟨"LUI", 0x0000007F#32, 0x00000037#32⟩,
   ⟨"JAL", 0x0000007F#32, 0x0000006F#32⟩,
   ⟨"ECALL", 0x0000007F#32, 0x00000073#32⟩]

/-- A word matches a row. -/
def OpcodeRow.covers (row : OpcodeRow) (w : InstrWord) : Bool := w &&& row.mask == row.pattern

/-- The mnemonic of an instruction, as the opcode table spells it. -/
def Instr.mnemonic : Instr → String
  | .addi _ _ _ => "ADDI"
  | .lui _ _ => "LUI"
  | .jal _ _ => "JAL"
  | .ecall => "ECALL"

/-- The word of an instruction (R52 to R55). ECALL has the canonical word 0x00000073 (R55); an odd JAL offset, which
`WellFormed` excludes, loses its bit 0, for which the J-type has no place. -/
def encode : Instr → InstrWord
  | .addi rd rs1 imm => imm ++ rs1 ++ 0#3 ++ rd ++ 0x13#7
  | .lui rd imm => imm ++ rd ++ 0x37#7
  | .jal rd offset =>
    offset.extractLsb' 20 1 ++ offset.extractLsb' 1 10 ++ offset.extractLsb' 11 1 ++ offset.extractLsb' 12 8 ++ rd ++ 0x6F#7
  | .ecall => 0x00000073#32

end Sys2Proof
end

