-- ==== Sys2Proof/Machine/Memory.lean ====
section
/-! DEFINITION. The address space (20_memory.md R30 to R42): the bytes of memory as a canonical list of cells, the bounds rule,
and the five access primitives over a memory of `size` bytes. Addresses are natural numbers, so no sum wraps (R33). -/

namespace Sys2Proof.Machine

/-- The bytes of memory that are not zero: addresses strictly rising. An address that is not listed holds 0x00
(10_state.md R25: "zero-initialized at construction"). -/
abbrev Memory := List Host.Cell

/-- The canonical form: addresses strictly rising, and no entry equal to what an unlisted address reads as. -/
abbrev Memory.wf (m : Memory) : Prop :=
  m.Pairwise (fun c d => c.1 < d.1) ∧ ∀ c ∈ m, c.2 ≠ 0#8

/-- Every listed byte lies inside a memory of `size` bytes (R31). -/
abbrev Memory.within (m : Memory) (size : Nat) : Prop := ∀ c ∈ m, c.1 < size

/-- What an address that no cell lists reads as. -/
def unlistedByte : Byte := 0#8

/-- The byte at an address. -/
def memGet : Memory → Nat → Byte
  | [], _ => unlistedByte
  | (k, v) :: rest, a => if a = k then v else memGet rest a

/-- Makes the byte at address `a` be `b`, keeping the canonical form. -/
def memSet : Memory → Nat → Byte → Memory
  | [], a, b => if b = unlistedByte then [] else [(a, b)]
  | (k, v) :: rest, a, b =>
    if a < k then
      if b = unlistedByte then (k, v) :: rest else (a, b) :: (k, v) :: rest
    else if a = k then
      if b = unlistedByte then rest else (a, b) :: rest
    else (k, v) :: memSet rest a b

/-- Makes the bytes from address `a` upward be `bs`. -/
def memSetBlock : Memory → Nat → List Byte → Memory
  | m, _, [] => m
  | m, a, b :: bs => memSetBlock (memSet m a b) (a + 1) bs

/-- An access that was not accepted: its first address and its width in bytes. DESIGN CHOICE of this model (log entry 27) for an access
of the host or the loader: the spec names no fields of such a failure (91_not_in_source.md N8). What the core reports is `Report`
(60_exceptions.md R135, decision D13, log entry 10). -/
structure OutOfBounds where
  addr : Nat
  width : Nat
deriving DecidableEq, Repr

/-- The bounds rule (R33): the sum is over the natural numbers and never wraps. -/
abbrev accepted (size a n : Nat) : Prop := a + n ≤ size

/-- `readByte` (R34). -/
def readByteAt (size : Nat) (m : Memory) (a : Nat) : Except OutOfBounds Byte :=
  if accepted size a 1 then .ok (memGet m a) else .error ⟨a, 1⟩

/-- `readWord32` (R36): four bytes, little-endian, at any alignment (R41). -/
def readWord32At (size : Nat) (m : Memory) (a : Nat) : Except OutOfBounds InstrWord :=
  if accepted size a 4 then
    .ok (wordOfBytes (memGet m a) (memGet m (a + 1)) (memGet m (a + 2)) (memGet m (a + 3)))
  else .error ⟨a, 4⟩

/-- `writeBlock` (R38): all of the block or, when its span exceeds the capacity, nothing of it (decision D18). -/
def writeBlockAt (size : Nat) (m : Memory) (a : Nat) (bs : List Byte) : Except OutOfBounds Memory :=
  if accepted size a bs.length then .ok (memSetBlock m a bs) else .error ⟨a, bs.length⟩

/-- `writeByte` (R35): the value is truncated to its low 8 bits. -/
def writeByteAt (size : Nat) (m : Memory) (a : Nat) (v : Word) : Except OutOfBounds Memory :=
  writeBlockAt size m a [v.setWidth 8]

/-- `writeWord32` (R37): the four little-endian bytes of the value. -/
def writeWord32At (size : Nat) (m : Memory) (a : Nat) (v : InstrWord) : Except OutOfBounds Memory :=
  writeBlockAt size m a (bytesOfWord v)

end Sys2Proof.Machine
end

