-- ==== Sys2Proof/Config.lean ====
section
/-! DEFINITION. What an implementation or a run fixes (00_scope.md R5): the open parameters MEM_SIZE and MAX_STEPS and the
two switches X0_HARDWIRED and OPIMM_F3_POLICY. The spec leaves no value free, so there is no opaque constant. -/

namespace Sys2Proof

/-- `OPIMM_F3_POLICY`: what opcode 0x13 with function-select 1 to 7 does (41_integer_computational.md R92). -/
inductive OpImmPolicy where
  /-- The word raises UnhandledInstruction: the spec's decision (92_eei_decisions.md D2). -/
  | fault
  /-- The word is a no-operation: the rejected choice, kept as a switch. -/
  | nop
deriving DecidableEq, Repr

/-- The parameters of one run (10_state.md R24). A step reads them and never changes them. -/
structure Config where
  /-- `MEM_SIZE`, the capacity of the address space in bytes (20_memory.md R31). -/
  memSize : Nat
  /-- `MAX_STEPS`, the step budget (40_execution_loop.md R78). -/
  maxSteps : Nat
  /-- `X0_HARDWIRED`: whether register 0 is a constant zero (10_state.md R12). -/
  x0Hardwired : Bool
  /-- `OPIMM_F3_POLICY`. -/
  opImmPolicy : OpImmPolicy
deriving DecidableEq, Repr

/-- The range R5 gives MEM_SIZE: a natural number below 2^64. -/
abbrev Config.WellFormed (c : Config) : Prop := c.memSize < 2 ^ 64

end Sys2Proof
end

