-- ==== Sys2Proof/Machine/ResetValues.lean ====
section
/-! DEFINITION. The values reset needs and the source does not state (00_scope.md R5, 10_state.md R25), each with its log entry. -/

namespace Sys2Proof.Machine

/-- `XREG_RESET`, the reset value of the general registers (decision D4, DESIGN CHOICE, log entry 2; unsafe). -/
def resetRegister : Word := 0#64

/-- The program counter before the host's SetPC (decision D5, DESIGN CHOICE, log entry 3; unsafe). -/
def resetPc : Word := 0#64

/-- The parameters of `State.reset`: the capacity the test vectors use (log entry 4), the default budget (log entry 5), and the
two switches as the spec decides them (log entries 1 and 6). -/
def resetConfig : Config :=
  { memSize := 0x10000, maxSteps := 100000, x0Hardwired := true, opImmPolicy := .fault }

end Sys2Proof.Machine
end

