-- ==== Sys2Proof/Machine/State.lean ====
section
/-! DEFINITION. The state of the machine as plain data (10_state.md R10 to R26), the reasons a step can stop, and reset. -/

namespace Sys2Proof.Machine

/-- The two logical states of the Processor (10_state.md R16). -/
inductive Mode where
  | running
  | halted
deriving DecidableEq, Repr

/-- Why the core halted (10_state.md R17); `Option.none` is the spec's `None`, still running. -/
inductive StopCause where
  | exit
  | budget
  | fault
deriving DecidableEq, Repr

/-- The width of a failed access of the core: 1 or 4 bytes (60_exceptions.md R135). -/
inductive AccessWidth where
  | one
  | four
deriving DecidableEq, Repr

/-- Which access of the core failed (60_exceptions.md R135). -/
inductive During where
  | fetch
  | write
deriving DecidableEq, Repr

/-- What a faulted run tells the host (10_state.md R17, 60_exceptions.md R135); `Option.none` is the spec's `None`. -/
inductive Report where
  /-- The raw fetched word and the address it was fetched from. -/
  | unhandledInstruction (word : InstrWord) (addr : Word)
  /-- The first address of the access that failed, its width, and which access made it. -/
  | outOfBounds (addr : Word) (width : AccessWidth) (during : During)
deriving DecidableEq, Repr

/-- Every piece of state the spec gives the machine. -/
structure State where
  /-- `x[0]` to `x[31]` (R11). Read and write them through `getReg` and `setReg`, where register 0 is hard-wired. -/
  regs : Vector Word 32
  /-- The program counter (R14): the next instruction's address between steps, `P + 4` while an instruction executes. -/
  pc : Word
  /-- The bytes of memory (R20). -/
  mem : Memory
  /-- All bytes appended since the run began, oldest first (R19). -/
  sink : List Byte
  /-- Running or Halted (R16). -/
  mode : Mode
  /-- Why the core halted (R17). -/
  stop : Option StopCause
  /-- What the host is told (R17). -/
  report : Option Report
  /-- Iterations of the run loop so far (R18). -/
  steps : Nat
  /-- The parameters of the run (R24): fixed by the host, read by a step, never changed by one. -/
  cfg : Config
deriving DecidableEq, Repr

/-- Why `step` stops without a next state. The spec's own faults are not here: they are next states (60_exceptions.md R136). -/
inductive Fault where
  /-- Raised by `step` on a Halted core: no step is enabled (40_execution_loop.md R70, R82; the stuck state of U16). Safe: the
  model has fewer continuations than a core that could resume. -/
  | halted
deriving DecidableEq, Repr

/-- What the model gives no meaning to. -/
inductive Refusal where
  /-- Raised by an arm of `exec` whose instruction has no meaning yet; no arm of this model does. Safe. -/
  | notModelled (mnemonic : String)
  /-- Raised by `run` when the host calls it on a Halted core (decision D14, U16). Safe. -/
  | runOnHaltedCore
deriving DecidableEq, Repr

/-- Construction of a fresh memory and a fresh Processor for one run (70_reset_and_hazards.md R160): memory all zero, mode
Running, nothing stopped, reported, counted or sent; registers and pc at the values log entries 2 and 3 name. -/
def State.construct (cfg : Config) : State :=
  { regs := Vector.replicate 32 resetRegister
    pc := resetPc
    mem := []
    sink := []
    mode := .running
    stop := none
    report := none
    steps := 0
    cfg := cfg }

/-- The machine right after reset (10_state.md R25), with the parameters log entries 1, 4, 5 and 6 name. -/
def State.reset : State := State.construct resetConfig

end Sys2Proof.Machine
end

