-- ==== Sys2Proof/Machine/Operands.lean ====
section
/-! DEFINITION. The operand forms: reading and writing a general register (10_state.md R11, R12) and the three immediates
(30_encoding.md R56 to R58). -/

namespace Sys2Proof.Machine

/-- `x[r]` as an instruction reads it (R11): register 0 reads 0 while it is hard-wired (decision D1). -/
def getReg (r : Reg) (s : State) : Word :=
  if s.cfg.x0Hardwired && r == 0#5 then 0#64 else s.regs[r.toNat]'r.isLt

/-- `x[r] <- v` (R12): a write to register 0 is discarded while it is hard-wired (decision D1). -/
def setReg (r : Reg) (v : Word) (s : State) : State :=
  if s.cfg.x0Hardwired && r == 0#5 then s else { s with regs := s.regs.set r.toNat v r.isLt }

/-- The I-immediate (R56): 12 bits, sign-extended to 64. -/
def immI (imm12 : BitVec 12) : Word := imm12.signExtend 64

/-- The U-immediate (R57): 20 bits above twelve zero bits, zero-extended to 64. -/
def immU (imm20 : BitVec 20) : Word := (imm20 ++ 0#12).setWidth 64

/-- The J-immediate (R58): 21 bits, sign-extended to 64. -/
def immJ (offset21 : BitVec 21) : Word := offset21.signExtend 64

end Sys2Proof.Machine
end

