-- ==== Sys2Proof/Machine/Ops.lean ====
section
/-! DEFINITION. The named operations over the whole state that a step and the instructions share: the core's memory reads, the
sink, the pc, halting, and taking a fault. -/

namespace Sys2Proof.Machine

/-- `MemRead(a, 1)` of the core (20_memory.md R34). -/
def readByte (a : Nat) (s : State) : Except OutOfBounds Byte := readByteAt s.cfg.memSize s.mem a

/-- `MemRead(a, 4)` of the core (20_memory.md R36). -/
def readWord32 (a : Nat) (s : State) : Except OutOfBounds InstrWord := readWord32At s.cfg.memSize s.mem a

/-- `SinkAppend(b)` (10_state.md R19). -/
def sinkAppend (b : Byte) (s : State) : State := { s with sink := s.sink ++ [b] }

/-- `pc <- target` (10_state.md R14). -/
def setPc (target : Word) (s : State) : State := { s with pc := target }

/-- The post-fetch advance (40_execution_loop.md R72): `pc <- pc + 4` modulo 2^64. -/
def advancePc (s : State) : State := setPc (s.pc + 4#64) s

/-- One iteration more (40_execution_loop.md R74). -/
def countStep (s : State) : State := { s with steps := s.steps + 1 }

/-- TAKING A FAULT, in full (60_exceptions.md R136): the core halts and the report is set. Nothing is saved in a register, there
is no handler to go to, and every other piece of state stays as it is. There is no return from it (R140). -/
def raise (r : Report) (s : State) : State :=
  { s with mode := .halted, stop := some .fault, report := some r }

/-- `halt(Exit)` (40_execution_loop.md R80): the core halts with no report. -/
def haltExit (s : State) : State := { s with mode := .halted, stop := some .exit }

/-- The end of a run whose budget is spent (40_execution_loop.md R77, R81): no error is raised. -/
def haltBudget (s : State) : State := { s with mode := .halted, stop := some .budget }

/-- The fetch (40_execution_loop.md R71): `MemRead(P, 4)` at the pc, at any alignment. -/
def fetch (s : State) : Except OutOfBounds InstrWord := readWord32 s.pc.toNat s

/-- A fetch outside the memory (R71, 60_exceptions.md R131), `s` the state before the step: the pc keeps its value. -/
def raiseFetch (s : State) : State := raise (.outOfBounds s.pc .four .fetch) s

/-- The dispatch of a word that is no instruction (R73, 60_exceptions.md R133); `p` is the address it was fetched from and `s` the
state after the advance. Under the rejected choice `OPIMM_F3_POLICY = nop` (41_integer_computational.md R92, decision D2) opcode
0x13 with a function-select other than 0 does nothing. -/
def dispatchUnhandled (why : Unhandled) (word : InstrWord) (p : Word) (s : State) : State :=
  match why, s.cfg.opImmPolicy with
  | .opImmFunct3 _, .nop => s
  | _, _ => raise (.unhandledInstruction word p) s

end Sys2Proof.Machine
end

