-- ==== Sys2Proof/Machine/Control.lean ====
section
/-! DEFINITION. The control transfer (42_control_transfer.md R100 to R102). A meaning is given the state after the post-fetch
advance, so its `pc` is the address after the instruction (40_execution_loop.md R72). -/

namespace Sys2Proof.Machine

/-- JAL (R100), as the source writes it: `x[rd] <- pc; pc <- pc + imm - 4`, all modulo 2^64. The target is not checked. -/
def execJal (rd : Reg) (offset : BitVec 21) (s : State) : Host.Outcome State Fault Refusal :=
  .next (setPc (s.pc + immJ offset - 4#64) (setReg rd s.pc s))

end Sys2Proof.Machine
end

