-- ==== Sys2Proof/Machine/Integer.lean ====
section
/-! DEFINITION. The integer computational instructions (41_integer_computational.md R90 to R94). A meaning is given the state
after the post-fetch advance (40_execution_loop.md R72). -/

namespace Sys2Proof.Machine

/-- ADDI (R91): `x[rd] <- x[rs1] + imm` modulo 2^64. The register is read before the result is written (R90). -/
def execAddi (rd rs1 : Reg) (imm : BitVec 12) (s : State) : Host.Outcome State Fault Refusal :=
  .next (setReg rd (getReg rs1 s + immI imm) s)

/-- LUI (R93): `x[rd] <- imm`, bits 63 to 32 zero. -/
def execLui (rd : Reg) (imm : BitVec 20) (s : State) : Host.Outcome State Fault Refusal :=
  .next (setReg rd (immU imm) s)

end Sys2Proof.Machine
end

