-- ==== Sys2Proof/Machine/System.lean ====
section
/-! DEFINITION. ECALL and its system calls (43_system.md R110 to R118). A meaning is given the state after the post-fetch advance
(40_execution_loop.md R72). -/

namespace Sys2Proof.Machine

/-- The register convention of the system calls (R111). -/
def regNumber : Reg := 17#5
def regFd : Reg := 10#5
def regBuffer : Reg := 11#5
def regLength : Reg := 12#5

/-- The two system-call numbers (R111). -/
def callWrite : Word := 64#64
def callExit : Word := 93#64

/-- The loop of the write call (R112): `n` bytes from address `a` upward, each appended as soon as it is read. The first byte
outside the memory raises OutOfBounds and the rest is not read (R113). -/
def writeLoop : Nat → Nat → State → State
  | 0, _, s => s
  | n + 1, a, s =>
    match readByte a s with
    | .ok b => writeLoop n (a + 1) (sinkAppend b s)
    | .error e => raise (.outOfBounds (BitVec.ofNat 64 e.addr) .one .write) s

/-- The write call (R112): buffer address in register 11, length in register 12; register 10 has no effect. -/
def writeCall (s : State) : State :=
  writeLoop (getReg regLength s).toNat (getReg regBuffer s).toNat s

/-- ECALL (R110): the number in register 17 is compared whole; 64 writes, 93 exits (R114), any other number does nothing (R115).
No call writes a register (R116). -/
def execEcall (s : State) : Host.Outcome State Fault Refusal :=
  if getReg regNumber s = callWrite then .next (writeCall s)
  else if getReg regNumber s = callExit then .next (haltExit s)
  else .next s

end Sys2Proof.Machine
end

