-- ==== Sys2Proof/Machine/Dispatch.lean ====
section
/-! DEFINITION. The dispatch of a decoded instruction to its handler (40_execution_loop.md R73): one arm per constructor. -/

namespace Sys2Proof.Machine

def exec (i : Instr) (s : State) : Host.Outcome State Fault Refusal :=
  match i with
  | .addi rd rs1 imm => Sys2Proof.Machine.execAddi rd rs1 imm s
  | .lui rd imm => Sys2Proof.Machine.execLui rd imm s
  | .jal rd offset => Sys2Proof.Machine.execJal rd offset s
  | .ecall => Sys2Proof.Machine.execEcall s

end Sys2Proof.Machine
end

