-- ==== Sys2Proof/Machine/Iterate.lean ====
section
/-! DEFINITION. One iteration of the run loop and one move of it (40_execution_loop.md R70 to R77); Step.lean only calls it. -/

namespace Sys2Proof.Machine

/-- The end of an iteration that ran an instruction: the iteration is counted (R74). -/
def finishStep (o : Host.Outcome State Fault Refusal) : Host.Outcome State Fault Refusal :=
  match o with
  | .next s => .next (countStep s)
  | .fault r => .fault r
  | .refused r => .refused r

/-- Advance, decode and execute (R72 to R74): `word` was fetched at the pc of `s`, the state before the advance. -/
def runWord (word : InstrWord) (s : State) : Host.Outcome State Fault Refusal :=
  match decode word with
  | .instr i => finishStep (exec i (advancePc s))
  | .unhandled why => .next (countStep (dispatchUnhandled why word s.pc (advancePc s)))

/-- One iteration of the run loop: fetch, advance, decode, execute, count (R71 to R75). -/
def iterate (s : State) : Host.Outcome State Fault Refusal :=
  match fetch s with
  | .ok word => runWord word s
  | .error _ => .next (countStep (raiseFetch s))

/-- One move of the run loop (R77). Running with budget left: one iteration (R70). Running with the budget spent: the core halts
without an error (R81). Halted: no step is enabled (R82), the model's stuck state. -/
def loopMove (s : State) : Host.Outcome State Fault Refusal :=
  match s.mode with
  | .halted => .fault .halted
  | .running => if s.steps < s.cfg.maxSteps then iterate s else .next (haltBudget s)

end Sys2Proof.Machine
end

