-- ==== Sys2Proof/Machine/Step.lean ====
section
/-! DEFINITION. One step of the machine, and the placing of an instruction where the next step fetches it. -/

namespace Sys2Proof.Machine

/-- One move of the run loop (40_execution_loop.md R77). -/
def step (s : State) : Host.Outcome State Fault Refusal := loopMove s

/-- `s` with the instruction whose bits are `w` stored at its pc, where `step` fetches. It stands for the host's load of a program
(70_reset_and_hazards.md R162), see log entry 18. -/
def State.withFetchWord (s : State) (nbits w : Nat) : State :=
  { s with mem := memSetBlock s.mem s.pc.toNat (bytesOfWord (tableWord nbits w)) }

end Sys2Proof.Machine
end

