-- ==== Sys2Proof/Machine/Assembly.lean ====
section
/-! DEFINITION. The assembler's names (30_encoding.md R62 to R64, marked there as general knowledge and not normative: the
encodings are): register names, the text of an instruction, and the pseudo-instructions as the instructions they expand to. -/

namespace Sys2Proof.Machine

/-- The ABI names of the registers 0 to 31 (R63). -/
def abiNames : List String :=
  ["zero", "ra", "sp", "gp", "tp", "t0", "t1", "t2", "s0", "s1", "a0", "a1", "a2", "a3", "a4", "a5", "a6", "a7"]
    ++ ["s2", "s3", "s4", "s5", "s6", "s7", "s8", "s9", "s10", "s11", "t3", "t4", "t5", "t6"]

/-- The ABI name of a register (R63). -/
def abiName (r : Reg) : String := abiNames.getD r.toNat ""

/-- The name of a register by number (R63). -/
def numberName (r : Reg) : String := "x" ++ toString r.toNat

/-- The syntax of an instruction (R62). -/
def render : Instr → String
  | .addi rd rs1 imm => "addi " ++ numberName rd ++ ", " ++ numberName rs1 ++ ", " ++ toString imm.toInt
  | .lui rd imm => "lui " ++ numberName rd ++ ", " ++ toString imm.toNat
  | .jal rd offset => "jal " ++ numberName rd ++ ", " ++ toString offset.toInt
  | .ecall => "ecall"

/-- The pseudo-instructions of R64. -/
inductive Pseudo where
  | nop
  | mv (rd rs : Reg)
  /-- `li rd, imm` with an immediate of -2048 to 2047. -/
  | liShort (rd : Reg) (imm : BitVec 12)
  /-- `li rd, imm` otherwise, the immediate as a 32-bit value. -/
  | liLong (rd : Reg) (imm : BitVec 32)
  | j (offset : BitVec 21)
  | jalRa (offset : BitVec 21)
deriving DecidableEq, Repr

/-- `lo = sext(imm[11:0])` of R64, as the 12-bit field. -/
def liLow (imm : BitVec 32) : BitVec 12 := imm.extractLsb' 0 12

/-- `hi = ((imm - lo) >> 12) & 0xFFFFF` of R64. -/
def liHigh (imm : BitVec 32) : BitVec 20 := (imm - (liLow imm).signExtend 32).extractLsb' 12 20

/-- The expansion of R64. -/
def expand : Pseudo → List Instr
  | .nop => [.addi 0#5 0#5 0#12]
  | .mv rd rs => [.addi rd rs 0#12]
  | .liShort rd imm => [.addi rd 0#5 imm]
  | .liLong rd imm => [.lui rd (liHigh imm), .addi rd rd (liLow imm)]
  | .j offset => [.jal 0#5 offset]
  | .jalRa offset => [.jal 1#5 offset]

end Sys2Proof.Machine
end

