-- ==== Sys2Proof/Machine/HostOps.lean ====
section
/-! DEFINITION. The host's moves on a constructed machine before a run (70_reset_and_hazards.md R164): the memory accessors no
instruction calls (20_memory.md R32). SetPC is `setPc` of Machine/Ops.lean. -/

namespace Sys2Proof.Machine

/-- The result of a host write as a state: the new memory, or the failure with nothing written (R37, R38); what the failure carries is
the model's choice (DESIGN CHOICE, log entry 27). -/
def withMemory (s : State) (r : Except OutOfBounds Memory) : Except OutOfBounds State :=
  match r with
  | .ok m => .ok { s with mem := m }
  | .error e => .error e

/-- `writeByte` (20_memory.md R35). -/
def hostWriteByte (a : Nat) (v : Word) (s : State) : Except OutOfBounds State :=
  withMemory s (writeByteAt s.cfg.memSize s.mem a v)

/-- `writeWord32` (20_memory.md R37). -/
def hostWriteWord32 (a : Nat) (v : InstrWord) (s : State) : Except OutOfBounds State :=
  withMemory s (writeWord32At s.cfg.memSize s.mem a v)

/-- `writeBlock` (20_memory.md R38). -/
def hostWriteBlock (a : Nat) (bs : List Byte) (s : State) : Except OutOfBounds State :=
  withMemory s (writeBlockAt s.cfg.memSize s.mem a bs)

end Sys2Proof.Machine
end

