-- ==== Sys2Proof/Machine/Loader.lean ====
section
/-! DEFINITION. The image loader (70_reset_and_hazards.md R166 to R175): host software that fills the address space from a byte
buffer before the run and returns the entry address. Offsets are natural numbers, so no offset sum wraps (R174, D19). -/

namespace Sys2Proof.Machine

/-- Why a load fails (60_exceptions.md R134). -/
inductive LoadError where
  /-- A read of the header, of the program-header table or of a segment's source outside the buffer (R174). -/
  | malformedImage
  /-- A copy outside the memory (R167, R172); what it carries is the model's choice (DESIGN CHOICE, log entry 27). -/
  | outOfBounds (e : OutOfBounds)
deriving DecidableEq, Repr

/-- What a load leaves: the memory, and the entry address or the failure. A failed load keeps what was written before it (R174). -/
inductive LoadResult where
  | loaded (entry : Word) (mem : Memory)
  | failed (why : LoadError) (mem : Memory)
deriving DecidableEq, Repr

/-- The base address and the entry of a raw image (00_scope.md R4: RAW_BASE). -/
def rawBase : Nat := 0x1000

/-- The magic constant 0x7F454C46 as the buffer's first four bytes (R166, R168). -/
def imageMagic : List Byte := [0x7F#8, 0x45#8, 0x4C#8, 0x46#8]

/-- The `type` of a loadable segment (R170). -/
def loadableType : Nat := 1

/-- The number a byte sequence is, lowest byte first (R168: every field but the magic is little-endian). -/
def littleEndian : List Byte → Nat
  | [] => 0
  | b :: bs => b.toNat + 256 * littleEndian bs

/-- `w` bytes of the buffer from offset `o`; nothing when the range falls outside the buffer (R174). -/
def slice (buf : List Byte) (o w : Nat) : Option (List Byte) :=
  if o + w ≤ buf.length then some ((buf.drop o).take w) else none

/-- The little-endian field of `w` bytes at offset `o` of the buffer. -/
def field (buf : List Byte) (o w : Nat) : Option Nat := (slice buf o w).map littleEndian

/-- A buffer is a structured image exactly when it begins with the magic (R166); a shorter buffer is a raw image (D19). -/
def isStructured (buf : List Byte) : Bool := buf.take 4 == imageMagic

/-- The header fields the loader reads (R169). -/
structure ImageHeader where
  entry : Nat
  phoff : Nat
  phentsize : Nat
  phnum : Nat
deriving DecidableEq, Repr

/-- The header of a structured image (R169), unless a read falls outside the buffer. -/
def parseHeader (buf : List Byte) : Option ImageHeader :=
  match field buf 0x18 8, field buf 0x20 8, field buf 0x36 2, field buf 0x38 2 with
  | some entry, some phoff, some phentsize, some phnum => some ⟨entry, phoff, phentsize, phnum⟩
  | _, _, _, _ => none

/-- A program-header entry as the loader sees it. -/
inductive ProgramHeader where
  /-- Not loadable: nothing but its type is read (R170). -/
  | skipped
  /-- A loadable entry (R171). -/
  | loadable (fileOffset virtualAddress fileSize : Nat)
deriving DecidableEq, Repr

/-- The program-header entry at `base` (R170, R171), unless a read falls outside the buffer. -/
def parseProgramHeader (buf : List Byte) (base : Nat) : Option ProgramHeader :=
  match field buf base 4 with
  | none => none
  | some type =>
    if type = loadableType then
      match field buf (base + 8) 8, field buf (base + 16) 8, field buf (base + 32) 8 with
      | some fileOffset, some virtualAddress, some fileSize => some (.loadable fileOffset virtualAddress fileSize)
      | _, _, _ => none
    else some .skipped

/-- The copy of one segment (R172): its source range is checked before any of its bytes is copied (D19). -/
def copySegment (size : Nat) (buf : List Byte) (fileOffset virtualAddress fileSize : Nat) (m : Memory) :
    Except LoadError Memory :=
  match slice buf fileOffset fileSize with
  | none => .error .malformedImage
  | some bytes =>
    match writeBlockAt size m virtualAddress bytes with
    | .ok m' => .ok m'
    | .error e => .error (.outOfBounds e)

/-- `n` entries of the program-header table from number `k` on, in table order (R170); `entry` is returned as read (R173). -/
def loadTable (size : Nat) (buf : List Byte) (h : ImageHeader) : Nat → Nat → Memory → LoadResult
  | 0, _, m => .loaded (BitVec.ofNat 64 h.entry) m
  | n + 1, k, m =>
    match parseProgramHeader buf (h.phoff + k * h.phentsize) with
    | none => .failed .malformedImage m
    | some .skipped => loadTable size buf h n (k + 1) m
    | some (.loadable fileOffset virtualAddress fileSize) =>
      match copySegment size buf fileOffset virtualAddress fileSize m with
      | .ok m' => loadTable size buf h n (k + 1) m'
      | .error e => .failed e m

/-- A raw image: the whole buffer at the raw base (R167). -/
def loadRaw (size : Nat) (buf : List Byte) (m : Memory) : LoadResult :=
  match writeBlockAt size m rawBase buf with
  | .ok m' => .loaded (BitVec.ofNat 64 rawBase) m'
  | .error e => .failed (.outOfBounds e) m

/-- A structured image: header, then the program-header table (R169 to R173). -/
def loadStructured (size : Nat) (buf : List Byte) (m : Memory) : LoadResult :=
  match parseHeader buf with
  | none => .failed .malformedImage m
  | some h => loadTable size buf h h.phnum 0 m

/-- `Load(buffer)` into a memory of `size` bytes (R166). -/
def load (size : Nat) (buf : List Byte) (m : Memory) : LoadResult :=
  if isStructured buf then loadStructured size buf m else loadRaw size buf m

end Sys2Proof.Machine
end

