-- ==== Sys2Proof/Machine/Run.lean ====
section
/-! DEFINITION. The boot sequence (70_reset_and_hazards.md R162) and the whole run (40_execution_loop.md R77). -/

namespace Sys2Proof.Machine

/-- What the boot sequence leaves: the launch state, or a failed load, after which no Processor is started (R162). -/
inductive BootResult where
  | ready (s : State)
  | failed (why : LoadError) (mem : Memory)
deriving DecidableEq, Repr

/-- The boot sequence up to Run (R162): construct the memory, load the image, construct the Processor, set the pc to the entry. -/
def boot (cfg : Config) (buf : List Byte) : BootResult :=
  match load cfg.memSize buf [] with
  | .loaded entry m => .ready (setPc entry { State.construct cfg with mem := m })
  | .failed why m => .failed why m

/-- At most `n` moves of the run loop, ending as soon as the core is Halted. -/
def runLoop : Nat → State → Host.Outcome State Fault Refusal
  | 0, s => .next s
  | n + 1, s =>
    match s.mode with
    | .halted => .next s
    | .running =>
      match step s with
      | .next s' => runLoop n s'
      | .fault r => .fault r
      | .refused r => .refused r

/-- The state in which the run loop starts: the budget is the argument of Run and no step is counted (R77). -/
def startRun (maxSteps : Nat) (s : State) : State :=
  { s with steps := 0, cfg := { s.cfg with maxSteps := maxSteps } }

/-- `Run(maxSteps)` (R77): at most `maxSteps` iterations and the move that ends a run whose budget is spent. A Halted core does not
run again (decision D14). -/
def run (maxSteps : Nat) (s : State) : Host.Outcome State Fault Refusal :=
  match s.mode with
  | .halted => .refused .runOnHaltedCore
  | .running => runLoop (maxSteps + 1) (startRun maxSteps s)

end Sys2Proof.Machine
end

