-- ==== Sys2Proof/Safety.lean ====
section
/-! DEFINITION. What claims speak of: the end of a run (70_reset_and_hazards.md R165), what the host sees (10_state.md R17), the
core's enabled and fetchable states, and the invariant of every run. -/

namespace Sys2Proof.Machine

/-- The program ended itself: the only end that counts as completion (R165). -/
abbrev Completed (s : State) : Prop := s.mode = .halted ∧ s.stop = some .exit

/-- The run went wrong in the machine's own terms, as `r` says (R165). -/
abbrev Faulted (r : Report) (s : State) : Prop := s.mode = .halted ∧ s.stop = some .fault ∧ s.report = some r

/-- The run was cut; the program did not end (R165). -/
abbrev CutShort (s : State) : Prop := s.mode = .halted ∧ s.stop = some .budget

/-- What the host sees of a run: the report and the sink (10_state.md R17). -/
def hostView (s : State) : Option Report × List Byte := (s.report, s.sink)

/-- A step is enabled (40_execution_loop.md R70). -/
abbrev Enabled (s : State) : Prop := s.mode = .running ∧ s.steps < s.cfg.maxSteps

/-- A step is enabled and its fetch succeeds with `word` (R71). -/
abbrev Fetches (word : InstrWord) (s : State) : Prop := Enabled s ∧ fetch s = .ok word

/-- `m'` is `m` with the `n` bytes of the buffer from `off` standing at `va`, and every other byte as in `m`
(70_reset_and_hazards.md R172, R175). -/
abbrev SegmentPlaced (buf : List Byte) (off va n : Nat) (m m' : Memory) : Prop :=
  (∀ i < n, memGet m' (va + i) = buf.getD (off + i) 0#8) ∧ ∀ a, a < va ∨ va + n ≤ a → memGet m' a = memGet m a

/-- What holds of the machine at reset and after every step. -/
structure Inv (s : State) : Prop where
  /-- The memory is in canonical form. -/
  memWf : s.mem.wf
  /-- No byte is listed outside the memory (20_memory.md R31). -/
  memWithin : s.mem.within s.cfg.memSize
  /-- MEM_SIZE is below 2^64 (00_scope.md R5). -/
  sizeBound : s.cfg.memSize < 2 ^ 64
  /-- The core is Halted exactly when it has a cause (10_state.md R17, R25). -/
  haltedIffStopped : s.mode = .halted ↔ s.stop ≠ none
  /-- There is a report exactly when a fault stopped the core (10_state.md R17). -/
  reportIffFault : s.report ≠ none ↔ s.stop = some .fault
  /-- The steps never exceed the budget (10_state.md R18). -/
  stepsBound : s.steps ≤ s.cfg.maxSteps
  /-- A run cut by its budget has used all of it (40_execution_loop.md R77). -/
  budgetSpent : s.stop = some .budget → s.steps = s.cfg.maxSteps
  /-- The cell of register 0 holds zero while the register is hard-wired (10_state.md R12). -/
  zeroCell : s.cfg.x0Hardwired = true → s.regs[0] = 0#64

end Sys2Proof.Machine
end

