-- ==== Sys2Proof/Certificates/Slice0/Obligations.lean ====
section
/-! DEFINITION. The statements for the provers. "D<n>" is a decision of spec/92_eei_decisions.md: the spec's own choice where the
source is open, so a statement that rests on one is 'derived' and names it with its log entry. -/

section

open Sys2Proof Sys2Proof.Machine

/-! ## Memory -/

/-- R39: the three properties the source requires of the memory primitives, on a memory in canonical form. -/
def Obligations.MemoryAccessProperties : Prop :=
  ∀ s : State, s.mem.wf →
    (∀ (a : Nat) (v : Word), a < s.cfg.memSize →
      ∃ t, hostWriteByte a v s = .ok t ∧ readByte a t = .ok ((v &&& 0xFF#64).setWidth 8)) ∧
    (∀ (a : Nat) (v : InstrWord), a + 4 ≤ s.cfg.memSize →
      ∃ t, hostWriteWord32 a v s = .ok t ∧ readWord32 a t = .ok v) ∧
    (∀ (a : Nat) (v : Word), s.cfg.memSize ≤ a →
      (∃ e, readByte a s = .error e) ∧ ∃ e, hostWriteByte a v s = .error e) ∧
    (∀ (a : Nat) (v : InstrWord), s.cfg.memSize < a + 4 →
      (∃ e, readWord32 a s = .error e) ∧ ∃ e, hostWriteWord32 a v s = .error e) ∧
    (∀ (a : Nat) (bs : List Byte), s.cfg.memSize < a + bs.length → ∃ e, hostWriteBlock a bs s = .error e)

/-- R36: readWord32 fails when the span exceeds the capacity and otherwise composes four consecutive bytes little-endian. -/
def Obligations.WordReadIsLittleEndian : Prop :=
  ∀ (a : Nat) (s : State),
    (s.cfg.memSize < a + 4 → ∃ e, readWord32 a s = .error e) ∧
    (a + 4 ≤ s.cfg.memSize → ∃ (w : InstrWord) (b0 b1 b2 b3 : Byte),
      readByte a s = .ok b0 ∧ readByte (a + 1) s = .ok b1 ∧ readByte (a + 2) s = .ok b2 ∧ readByte (a + 3) s = .ok b3 ∧
      readWord32 a s = .ok w ∧
      w.toNat = b0.toNat + 2 ^ 8 * b1.toNat + 2 ^ 16 * b2.toNat + 2 ^ 24 * b3.toNat)

/-- R35: writeByte fails outside the memory; inside it writes the low 8 bits of the value, and nothing else changes. -/
def Obligations.ByteWriteTruncates : Prop :=
  ∀ (a : Nat) (v : Word) (s : State), s.mem.wf →
    (s.cfg.memSize ≤ a → ∃ e, hostWriteByte a v s = .error e) ∧
    (a < s.cfg.memSize → ∃ t, hostWriteByte a v s = .ok t ∧ t = { s with mem := t.mem } ∧
      readByte a t = .ok (v.extractLsb' 0 8) ∧ ∀ b, b ≠ a → readByte b t = readByte b s)

/-- The word write of 20_memory.md section 3, seen by byte reads (section 4): it fails when its span exceeds the capacity, over
unbounded sums (the spec's decision D8, log entry 11); otherwise byte `k` of the span reads bits 8k+7 to 8k of the value, and every
byte outside the span and every other piece of state keeps its value. -/
def Obligations.MixedWidthAccess : Prop :=
  ∀ (a : Nat) (v : InstrWord) (s : State), s.mem.wf →
    (s.cfg.memSize < a + 4 → ∃ e, hostWriteWord32 a v s = .error e) ∧
    (a + 4 ≤ s.cfg.memSize → ∃ t, hostWriteWord32 a v s = .ok t ∧ t = { s with mem := t.mem } ∧
      (∀ k < 4, readByte (a + k) t = .ok (v.extractLsb' (8 * k) 8)) ∧
      ∀ b, b < a ∨ a + 4 ≤ b → readByte b t = readByte b s)

/-- The block write of 20_memory.md section 3: it places every byte of the block and leaves the rest alone. That it fails exactly
when the span exceeds the capacity, over unbounded sums, is the spec's decision D8 (log entry 11). -/
def Obligations.BlockWritePlacesItsBytes : Prop :=
  ∀ (a : Nat) (bs : List Byte) (s : State), s.mem.wf →
    (s.cfg.memSize < a + bs.length → ∃ e, hostWriteBlock a bs s = .error e) ∧
    (a + bs.length ≤ s.cfg.memSize → ∃ t, hostWriteBlock a bs s = .ok t ∧ t = { s with mem := t.mem } ∧
      (∀ (i : Nat) (h : i < bs.length), readByte (a + i) t = .ok bs[i]) ∧
      ∀ b, b < a ∨ a + bs.length ≤ b → readByte b t = readByte b s)

/-- R41: no access has an alignment requirement, the fetch included: an access faults only by the bounds rule. -/
def Obligations.NoAccessNeedsAlignment : Prop :=
  ∀ (a : Nat) (v : InstrWord) (s : State),
    (a + 4 ≤ s.cfg.memSize → (∃ w, readWord32 a s = .ok w) ∧ ∃ t, hostWriteWord32 a v s = .ok t) ∧
    (s.pc.toNat + 4 ≤ s.cfg.memSize → ∃ w, fetch s = .ok w)

/-! ## Encoding -/

/-- Words of 95_test_vectors.md section 2.2, written out there from the encoding tables, decode as listed there. -/
def Obligations.SpecWordsDecode : Prop :=
  decode 0xFFF28313#32 = .instr (.addi 6#5 5#5 0xFFF#12) ∧
  decode 0x80000293#32 = .instr (.addi 5#5 0#5 0x800#12) ∧
  decode 0x00001013#32 = .unhandled (.opImmFunct3 1#3) ∧
  decode 0x123452B7#32 = .instr (.lui 5#5 0x12345#20) ∧
  decode 0x0F27F1EF#32 = .instr (.jal 3#5 0x07F0F2#21) ∧
  decode 0xFFDFF06F#32 = .instr (.jal 0#5 (-4#21)) ∧
  decode 0x00100073#32 = .instr .ecall ∧
  decode 0x00000000#32 = .unhandled (.opcode 0#7)

/-- Decoding the word of a well-formed instruction gives it back, with every operand at every value the encoding admits. -/
def Obligations.DecodeOfEncode : Prop :=
  ∀ i : Instr, i.WellFormed → decode (encode i) = .instr i

/-- A word that decodes to an instruction is that instruction's word, except that ECALL ignores the bits above its opcode (the
spec's decision D3, log entry 7); what is decoded is well formed. -/
def Obligations.EncodeOfDecode : Prop :=
  ∀ (w : InstrWord) (i : Instr), decode w = .instr i →
    i.WellFormed ∧ (i ≠ .ecall → encode i = w) ∧ (i = .ecall → w.extractLsb' 0 7 = 0x73#7)

/-- A word is the instruction of a row exactly when `w & mask = match`, and every word that matches no row is unhandled. Rests on
the spec's decisions D2 and D3 (log entries 6 and 7). -/
def Obligations.DecodeFollowsOpcodeTable : Prop :=
  ∀ w : InstrWord,
    (∀ i, decode w = .instr i → ∃ row ∈ opcodeTable, row.mnemonic = i.mnemonic ∧ w &&& row.mask = row.pattern) ∧
    (∀ row ∈ opcodeTable, w &&& row.mask = row.pattern → ∃ i, decode w = .instr i ∧ i.mnemonic = row.mnemonic)

/-- R52 and R56: the ADDI word's fields, its immediate bit by bit and its range. -/
def Obligations.AddiWordFields : Prop :=
  ∀ w : InstrWord, w &&& 0x0000707F#32 = 0x00000013#32 →
    ∃ imm, decode w = .instr (.addi (w.extractLsb' 7 5) (w.extractLsb' 15 5) imm) ∧ imm = w.extractLsb' 20 12 ∧
      (∀ k < 64, (immI imm).getLsbD k = if k < 12 then w.getLsbD (20 + k) else w.getLsbD 31) ∧
      -2048 ≤ (immI imm).toInt ∧ (immI imm).toInt ≤ 2047 ∧
      ((immI imm).toNat ≤ 0x7FF ∨ 0xFFFFFFFFFFFFF800 ≤ (immI imm).toNat)

/-- R53 and R57: the LUI word's fields and its immediate, a multiple of 0x1000 below 2^32. -/
def Obligations.LuiWordFields : Prop :=
  ∀ w : InstrWord, w &&& 0x0000007F#32 = 0x00000037#32 →
    ∃ imm, decode w = .instr (.lui (w.extractLsb' 7 5) imm) ∧ imm = w.extractLsb' 12 20 ∧
      immU imm = (w &&& 0xFFFFF000#32).setWidth 64 ∧
      (immU imm).toNat % 0x1000 = 0 ∧ (immU imm).toNat ≤ 0xFFFFF000

/-- R54: the JAL word's fields and where each bit of its immediate comes from. (That bit 0 is zero is the spec's inference in R58:
see `StepKeepsPcParity`.) -/
def Obligations.JalWordFields : Prop :=
  ∀ w : InstrWord, w &&& 0x0000007F#32 = 0x0000006F#32 →
    ∃ off, decode w = .instr (.jal (w.extractLsb' 7 5) off) ∧
      ∀ k, 0 < k → k < 64 → (immJ off).getLsbD k =
        if k ≤ 10 then w.getLsbD (20 + k)
        else if k = 11 then w.getLsbD 20
        else if k ≤ 19 then w.getLsbD k
        else w.getLsbD 31

/-! ## Registers -/

/-- The register file: a read after a write, with register 0 a constant zero while it is hard-wired (the spec's decision D1, log
entry 1), and an ordinary register otherwise. -/
def Obligations.RegisterReadAfterWrite : Prop :=
  ∀ (r q : Reg) (v : Word) (s : State),
    getReg q (setReg r v s) =
      (if q = r then (if s.cfg.x0Hardwired = true ∧ r = 0#5 then 0#64 else v) else getReg q s) ∧
    (s.cfg.x0Hardwired = true → getReg 0#5 s = 0#64 ∧ setReg 0#5 v s = s) ∧
    setReg r v s = { s with regs := (setReg r v s).regs }

/-! ## Each instruction completes: its result and its frame -/

/-- ADDI completes in every state: `x[rd]` becomes `x[rs1] + imm` modulo 2^64, every other register, every byte of memory and every
other piece of state keeps its value. That rd = 0 stores nothing while register 0 is hard-wired is D1 (log entry 1). -/
def Obligations.AddiCompletes : Prop :=
  ∀ (rd rs1 : Reg) (imm : BitVec 12) (s : State),
    ∃ t, exec (.addi rd rs1 imm) s = .next t ∧
      getReg rd t = (if s.cfg.x0Hardwired = true ∧ rd = 0#5 then 0#64 else getReg rs1 s + imm.signExtend 64) ∧
      (∀ r, r ≠ rd → getReg r t = getReg r s) ∧ (∀ a, readByte a t = readByte a s) ∧ t = { s with regs := t.regs }

/-- LUI completes in every state: `x[rd]` becomes the immediate with bits 63 to 32 and 11 to 0 zero, and everything else keeps its
value. That rd = 0 stores nothing while register 0 is hard-wired is D1 (log entry 1). -/
def Obligations.LuiCompletes : Prop :=
  ∀ (rd : Reg) (imm : BitVec 20) (s : State),
    ∃ t, exec (.lui rd imm) s = .next t ∧
      (getReg rd t).toNat = (if s.cfg.x0Hardwired = true ∧ rd = 0#5 then 0 else imm.toNat * 0x1000) ∧
      (∀ r, r ≠ rd → getReg r t = getReg r s) ∧ (∀ a, readByte a t = readByte a s) ∧ t = { s with regs := t.regs }

/-- JAL completes in every state, whatever its target: with `pc` the address after the JAL, `x[rd]` becomes `pc` and the pc becomes
`pc + imm - 4` modulo 2^64; everything else keeps its value. The wrap is the spec's decision D11 (log entry 12), rd = 0 is D1 (log
entry 1). -/
def Obligations.JalCompletes : Prop :=
  ∀ (rd : Reg) (off : BitVec 21) (s : State),
    ∃ t, exec (.jal rd off) s = .next t ∧ t.pc = s.pc + off.signExtend 64 - 4#64 ∧
      getReg rd t = (if s.cfg.x0Hardwired = true ∧ rd = 0#5 then 0#64 else s.pc) ∧
      (∀ r, r ≠ rd → getReg r t = getReg r s) ∧ (∀ a, readByte a t = readByte a s) ∧
      t = { s with regs := t.regs, pc := t.pc }

/-- ECALL completes in every state, whichever call it makes: no register, no byte of memory, not the pc, the step counter or the
parameters change; bytes are only appended to the sink. A write of a buffer inside the memory, or of length 0, appends exactly the
buffer and the core goes on; an exit halts it; a number that is neither 64 nor 93 changes nothing. (The write that leaves the memory
is `StepWriteOutOfBounds`.) That no call writes a register is the spec's decision D17 (log entry 14); the comparison of all 64 bits
is D12 (log entry 13). -/
def Obligations.EcallCompletes : Prop :=
  ∀ s : State, ∃ t extra, exec .ecall s = .next t ∧
    t = { s with sink := s.sink ++ extra, mode := t.mode, stop := t.stop, report := t.report } ∧
    (∀ r, getReg r t = getReg r s) ∧ (∀ a, readByte a t = readByte a s) ∧
    (getReg 17#5 s = 64#64 →
      getReg 12#5 s = 0#64 ∨ (getReg 11#5 s).toNat + (getReg 12#5 s).toNat ≤ s.cfg.memSize →
      extra = (List.range (getReg 12#5 s).toNat).map (fun i => memGet s.mem ((getReg 11#5 s).toNat + i)) ∧
      t.mode = s.mode ∧ t.stop = s.stop ∧ t.report = s.report) ∧
    (getReg 17#5 s ≠ 64#64 → extra = []) ∧
    (getReg 17#5 s = 93#64 → t.mode = .halted ∧ t.stop = some .exit ∧ t.report = s.report) ∧
    (getReg 17#5 s ≠ 64#64 → getReg 17#5 s ≠ 93#64 → t = s)

/-! ## Each instruction as a step of the machine -/

/-- R91 with its encoding, at the step: from `P`, the ADDI word `w` gives `x[rd] = x[rs1] + sext(w[31:20])`, `pc = P + 4`, one step
counted, nothing else changed. The rd = 0 clause is D1 (log entry 1). -/
def Obligations.StepRunsAddiWord : Prop :=
  ∀ (w : InstrWord) (s : State), Fetches w s → w &&& 0x0000707F#32 = 0x00000013#32 →
    ∃ t, step s = .next t ∧
      getReg (w.extractLsb' 7 5) t =
        (if s.cfg.x0Hardwired = true ∧ w.extractLsb' 7 5 = 0#5 then 0#64
         else getReg (w.extractLsb' 15 5) s + (w.extractLsb' 20 12).signExtend 64) ∧
      (∀ r, r ≠ w.extractLsb' 7 5 → getReg r t = getReg r s) ∧
      t = { s with regs := t.regs, pc := s.pc + 4#64, steps := s.steps + 1 }

/-- R93 with its encoding, at the step: from `P`, the LUI word `w` gives `x[rd] = zext(w & 0xFFFFF000)`, `pc = P + 4`, one step
counted, nothing else changed. The rd = 0 clause is D1 (log entry 1). -/
def Obligations.StepRunsLuiWord : Prop :=
  ∀ (w : InstrWord) (s : State), Fetches w s → w &&& 0x0000007F#32 = 0x00000037#32 →
    ∃ t, step s = .next t ∧
      getReg (w.extractLsb' 7 5) t =
        (if s.cfg.x0Hardwired = true ∧ w.extractLsb' 7 5 = 0#5 then 0#64 else (w &&& 0xFFFFF000#32).setWidth 64) ∧
      (∀ r, r ≠ w.extractLsb' 7 5 → getReg r t = getReg r s) ∧
      t = { s with regs := t.regs, pc := s.pc + 4#64, steps := s.steps + 1 }

/-- R100 in terms of `P`: the JAL gives `x[rd] = P + 4` and `pc = P + imm` modulo 2^64, one step counted, nothing else changed; its
target is not checked. The wrap is D11 (log entry 12), the rd = 0 clause D1 (log entry 1). -/
def Obligations.StepRunsJalWord : Prop :=
  ∀ (w : InstrWord) (rd : Reg) (off : BitVec 21) (s : State), Fetches w s → decode w = .instr (.jal rd off) →
    ∃ t, step s = .next t ∧
      getReg rd t = (if s.cfg.x0Hardwired = true ∧ rd = 0#5 then 0#64 else s.pc + 4#64) ∧
      (∀ r, r ≠ rd → getReg r t = getReg r s) ∧
      t = { s with regs := t.regs, pc := s.pc + off.signExtend 64, steps := s.steps + 1 }

/-- R114 and R80: the exit call halts the core with no report, appends nothing, leaves `pc = P + 4`, counts its step, and no further
step is taken. (That the other words with opcode 0x73 do the same is `EveryOpcode73WordIsEcall`.) -/
def Obligations.StepExitHalts : Prop :=
  ∀ s : State, Fetches 0x00000073#32 s → getReg 17#5 s = 93#64 →
    ∃ t, step s = .next t ∧
      t = { s with pc := s.pc + 4#64, steps := s.steps + 1, mode := .halted, stop := some .exit } ∧
      step t = .fault .halted

/-- 43_system.md, any other number: the ECALL does nothing but advance the pc and count its step. That every 64-bit value other than
64 and 93 is such a number is the whole comparison of the spec's decision D12 (log entry 13); that the step counts is D20 (log entry
15). -/
def Obligations.StepOtherCallIsNop : Prop :=
  ∀ s : State, Fetches 0x00000073#32 s → getReg 17#5 s ≠ 64#64 → getReg 17#5 s ≠ 93#64 →
    step s = .next { s with pc := s.pc + 4#64, steps := s.steps + 1 }

/-- The write call inside the memory (43_system.md, write): the `len` bytes from the buffer address upward are appended in order and
the core goes on; a length of 0 succeeds wherever the address is. The sums do not wrap (D8, log entry 11). -/
def Obligations.StepWriteAppendsBuffer : Prop :=
  ∀ s : State, Fetches 0x00000073#32 s → getReg 17#5 s = 64#64 →
    (getReg 12#5 s = 0#64 ∨ (getReg 11#5 s).toNat + (getReg 12#5 s).toNat ≤ s.cfg.memSize) →
    step s = .next { s with
      pc := s.pc + 4#64
      steps := s.steps + 1
      sink := s.sink ++
        (List.range (getReg 12#5 s).toNat).map fun i => memGet s.mem ((getReg 11#5 s).toNat + i) }

/-- The write call that leaves the memory (43_system.md, write out of bounds): the bytes before the first failing address have been
sent, the core halts, and the report names that address, width 1, Write. The delivered bytes are the spec's decision D10 (log entry
8), the report's fields D13 (log entry 10). -/
def Obligations.StepWriteOutOfBounds : Prop :=
  ∀ s : State, Fetches 0x00000073#32 s → getReg 17#5 s = 64#64 → getReg 12#5 s ≠ 0#64 →
    s.cfg.memSize < (getReg 11#5 s).toNat + (getReg 12#5 s).toNat →
    step s = .next { s with
      pc := s.pc + 4#64
      steps := s.steps + 1
      mode := .halted
      stop := some .fault
      report := some (.outOfBounds
        (BitVec.ofNat 64 ((getReg 11#5 s).toNat + (s.cfg.memSize - (getReg 11#5 s).toNat))) .one .write)
      sink := s.sink ++
        (List.range (s.cfg.memSize - (getReg 11#5 s).toNat)).map fun i => memGet s.mem ((getReg 11#5 s).toNat + i) }

/-- The file descriptor has no effect: changing register 10 before an ECALL changes register 10 after it and nothing else. -/
def Obligations.WriteIgnoresFileDescriptor : Prop :=
  ∀ (v : Word) (s : State), ∃ t, exec .ecall s = .next t ∧ exec .ecall (setReg 10#5 v s) = .next (setReg 10#5 v t)

/-- Every word with opcode 0x73 runs exactly as the canonical ECALL word (the spec's decision D3, log entry 7). -/
def Obligations.EveryOpcode73WordIsEcall : Prop :=
  ∀ (w : InstrWord) (s : State), w.extractLsb' 0 7 = 0x73#7 → runWord w s = runWord 0x00000073#32 s

/-! ## The step and the run loop -/

/-- When the four bytes at the pc of an enabled state decode to `i`, the step is `exec i` on the state with the pc advanced by 4, and
one step is counted. -/
def Obligations.StepRunsDecodedInstruction : Prop :=
  ∀ (s : State) (b0 b1 b2 b3 : Byte) (i : Instr), Enabled s →
    readByte s.pc.toNat s = .ok b0 → readByte (s.pc.toNat + 1) s = .ok b1 →
    readByte (s.pc.toNat + 2) s = .ok b2 → readByte (s.pc.toNat + 3) s = .ok b3 →
    decodeBytes [b0, b1, b2, b3] = .instr i →
    i.WellFormed ∧
    step s = match exec i { s with pc := s.pc + 4#64 } with
      | .next t => .next { t with steps := t.steps + 1 }
      | .fault r => .fault r
      | .refused r => .refused r

/-- A fetch outside the memory halts the core with the report OutOfBounds P 4 Fetch; the pc keeps its value and the iteration counts
(the spec's decisions D9, D13 and D20, log entries 9, 10 and 15). -/
def Obligations.StepFetchOutOfBounds : Prop :=
  ∀ s : State, Enabled s → s.cfg.memSize < s.pc.toNat + 4 →
    step s = .next { s with
      mode := .halted
      stop := some .fault
      report := some (.outOfBounds s.pc .four .fetch)
      steps := s.steps + 1 }

/-- A word that matches no row of the opcode table raises UnhandledInstruction with the word and its address, writes nothing and
leaves `pc = P + 4`; under the rejected choice of the switch (D2, log entry 6) an opcode-0x13 word does nothing instead. The report's
fields are D13 (log entry 10). -/
def Obligations.StepUnhandledWord : Prop :=
  ∀ (w : InstrWord) (s : State), Fetches w s → (∀ row ∈ opcodeTable, w &&& row.mask ≠ row.pattern) →
    step s = .next (if s.cfg.opImmPolicy = .nop ∧ w.extractLsb' 0 7 = 0x13#7
      then { s with pc := s.pc + 4#64, steps := s.steps + 1 }
      else { s with
        pc := s.pc + 4#64
        steps := s.steps + 1
        mode := .halted
        stop := some .fault
        report := some (.unhandledInstruction w s.pc) })

/-- R81: a run whose budget is spent ends Halted without an error; every register, the pc and the sink hold what the last step left,
and the host sees nothing of it. -/
def Obligations.BudgetEndsRunSilently : Prop :=
  ∀ s : State, s.mode = .running → s.cfg.maxSteps ≤ s.steps →
    ∃ t, step s = .next t ∧ t = { s with mode := .halted, stop := some .budget } ∧ hostView t = hostView s

/-- Halted is absorbing: no step is enabled, whatever halted the core, and Run is refused (the spec's decision D14, log entry 16). -/
def Obligations.HaltedTakesNoStep : Prop :=
  ∀ s : State, s.mode = .halted → step s = .fault .halted ∧ ∀ maxSteps, run maxSteps s = .refused .runOnHaltedCore

/-- A running core always has a next state: no word and no data stop the model. -/
def Obligations.RunningCoreAlwaysSteps : Prop :=
  ∀ s : State, s.mode = .running → ∃ t, step s = .next t ∧ (t.mode = .halted ∨ t.steps = s.steps + 1)

/-- What no step does, whatever it runs: memory and parameters never change, the sink only grows, at most one register changes, and a
step is counted unless the budget was spent. That a failed fetch counts is the spec's decision D20 (log entry 15). What each
instruction may change is `StepChangesOnlyWhatItsInstructionNames`. -/
def Obligations.StepKeepsMemoryAndAllButOneRegister : Prop :=
  ∀ s t : State, step s = .next t →
    t.mem = s.mem ∧ (∀ a, readByte a t = readByte a s) ∧ t.cfg = s.cfg ∧ (∃ extra, t.sink = s.sink ++ extra) ∧
    (∃ rd, ∀ r, r ≠ rd → getReg r t = getReg r s) ∧
    t.steps = if s.steps < s.cfg.maxSteps then s.steps + 1 else s.steps

/-- The frame of a step per fetched instruction, the list of R76: a spent budget changes mode and stop; a failed fetch mode, stop,
report and steps; ADDI and LUI `x[rd]`, pc and steps; JAL the same; ECALL pc and steps, with the sink for a write, mode and stop for
an exit, the sink, mode, stop and report for a write that faults; a word that is no instruction pc, steps, mode, stop and report.
Everything else keeps its value, register 0 too where it is hard-wired (D1, log entry 1). The pc after a failed fetch is D9 (log entry
9), the counted steps D20 (log entry 15), the wrap of a pc sum D11 (log entry 12), the comparison of the number D12 (log entry 13). -/
def Obligations.StepChangesOnlyWhatItsInstructionNames : Prop :=
  ∀ s t : State, step s = .next t →
    (s.cfg.maxSteps ≤ s.steps → t = { s with mode := .halted, stop := some .budget }) ∧
    (s.steps < s.cfg.maxSteps → s.cfg.memSize < s.pc.toNat + 4 →
      t = { s with mode := .halted, stop := some .fault, report := t.report, steps := s.steps + 1 }) ∧
    (∀ w, s.steps < s.cfg.maxSteps → fetch s = .ok w →
      (∀ rd rs1 imm, decode w = .instr (.addi rd rs1 imm) →
        t = { s with regs := t.regs, pc := s.pc + 4#64, steps := s.steps + 1 } ∧
        ∀ r, r ≠ rd ∨ s.cfg.x0Hardwired = true ∧ r = 0#5 → getReg r t = getReg r s) ∧
      (∀ rd imm, decode w = .instr (.lui rd imm) →
        t = { s with regs := t.regs, pc := s.pc + 4#64, steps := s.steps + 1 } ∧
        ∀ r, r ≠ rd ∨ s.cfg.x0Hardwired = true ∧ r = 0#5 → getReg r t = getReg r s) ∧
      (∀ rd off, decode w = .instr (.jal rd off) →
        t = { s with regs := t.regs, pc := s.pc + off.signExtend 64, steps := s.steps + 1 } ∧
        ∀ r, r ≠ rd ∨ s.cfg.x0Hardwired = true ∧ r = 0#5 → getReg r t = getReg r s) ∧
      (decode w = .instr .ecall →
        (getReg 17#5 s = 64#64 →
          (∃ extra, t = { s with pc := s.pc + 4#64, steps := s.steps + 1, sink := s.sink ++ extra }) ∨
          ∃ extra, t = { s with
            pc := s.pc + 4#64
            steps := s.steps + 1
            sink := s.sink ++ extra
            mode := .halted
            stop := some .fault
            report := t.report }) ∧
        (getReg 17#5 s = 93#64 →
          t = { s with pc := s.pc + 4#64, steps := s.steps + 1, mode := .halted, stop := some .exit }) ∧
        (getReg 17#5 s ≠ 64#64 → getReg 17#5 s ≠ 93#64 → t = { s with pc := s.pc + 4#64, steps := s.steps + 1 })) ∧
      (∀ why, decode w = .unhandled why →
        t = { s with pc := s.pc + 4#64, steps := s.steps + 1, mode := t.mode, stop := t.stop, report := t.report }))

/-- Where the pc goes: it stays when the budget is spent or the fetch fails, a JAL adds its offset to it, and every other fetched
word adds 4. (Addition modulo 2^64: D11, log entry 12; the failed fetch: D9, log entry 9.) -/
def Obligations.StepMovesPcByFourOrJal : Prop :=
  ∀ s t : State, step s = .next t →
    (t.pc = s.pc ∧ t.mode = .halted ∧ (s.cfg.maxSteps ≤ s.steps ∨ s.cfg.memSize < s.pc.toNat + 4)) ∨
    (s.steps < s.cfg.maxSteps ∧ ∃ w, fetch s = .ok w ∧
      ((∃ rd off, decode w = .instr (.jal rd off) ∧ t.pc = s.pc + off.signExtend 64) ∨
       ((∀ rd off, decode w ≠ .instr (.jal rd off)) ∧ t.pc = s.pc + 4#64)))

/-- Every step keeps the parity of the pc, since a JAL moves it by an even amount (the spec's inference in R58 that bit 0 of the
immediate is 0; wrap D11, log entry 12). -/
def Obligations.StepKeepsPcParity : Prop :=
  ∀ s t : State, step s = .next t → t.pc.toNat % 2 = s.pc.toNat % 2

/-- Faults are precise: a step that faults has written no register and no memory, and the host recovers the instruction's address
from the report or from the pc. (The report's fields: D13, log entry 10; the pc after a failed fetch: D9, log entry 9.) -/
def Obligations.FaultsArePrecise : Prop :=
  ∀ s t : State, Inv s → step s = .next t → t.stop = some .fault →
    t.mode = .halted ∧ t.regs = s.regs ∧ t.mem = s.mem ∧
    ((∃ w, t.report = some (.unhandledInstruction w s.pc) ∧ fetch s = .ok w ∧ t.pc = s.pc + 4#64 ∧ t.sink = s.sink) ∨
     (t.report = some (.outOfBounds s.pc .four .fetch) ∧ t.pc = s.pc ∧ t.sink = s.sink) ∨
     (∃ a : Word, t.report = some (.outOfBounds a .one .write) ∧ s.cfg.memSize ≤ a.toNat ∧ t.pc - 4#64 = s.pc))

/-- The machine's invariant is kept by every step, from every state that meets it. -/
def Obligations.StepKeepsInvariant : Prop :=
  ∀ s t : State, Inv s → step s = .next t → Inv t

/-- A freshly constructed machine meets the invariant, and so does the machine after reset. (The values of the registers, the pc and
the parameters after reset are D4, D5, D6 and D7: log entries 2, 3, 4 and 5.) -/
def Obligations.ConstructionMeetsInvariant : Prop :=
  (∀ cfg : Config, cfg.WellFormed → Inv (State.construct cfg)) ∧ Inv State.reset

/-- What reset leaves (10_state.md section 8): memory all zero, Running, no cause, no report, no step counted, nothing sent; the
registers and the pc are 0 by the spec's decisions D4 and D5 (log entries 2 and 3). -/
def Obligations.ResetLeaves : Prop :=
  (∀ a < State.reset.cfg.memSize, readByte a State.reset = .ok 0#8) ∧
  (∀ r : Reg, getReg r State.reset = 0#64) ∧ State.reset.pc = 0#64 ∧ State.reset.mode = .running ∧
  State.reset.stop = none ∧ State.reset.report = none ∧ State.reset.steps = 0 ∧ State.reset.sink = []

/-- Every run ends: Run answers a Halted state after at most its budget of steps, whatever the memory holds. -/
def Obligations.RunAlwaysEnds : Prop :=
  ∀ (maxSteps : Nat) (s : State), s.mode = .running →
    ∃ t, run maxSteps s = .next t ∧ t.mode = .halted ∧ t.steps ≤ maxSteps

/-- Run is the host's own iteration of `step`: some number of moves, at most the budget and one more, reaches the state Run answers,
and it is Halted. -/
def Obligations.RunFollowsCoreSteps : Prop :=
  ∀ (maxSteps : Nat) (s : State), s.mode = .running →
    ∃ k t, k ≤ maxSteps + 1 ∧ Host.Core.run core k (startRun maxSteps s) = .next t ∧ t.mode = .halted ∧
      run maxSteps s = .next t

/-- A budget of 0 fetches nothing (the spec's decision D20, log entry 15). -/
def Obligations.RunOfZeroFetchesNothing : Prop :=
  ∀ s : State, s.mode = .running → ∃ t, run 0 s = .next t ∧
    t = { s with steps := 0, cfg := { s.cfg with maxSteps := 0 }, mode := .halted, stop := some .budget }

/-- Memory is constant from launch to halt, the sink only grows, and Run changes no parameter but the budget. -/
def Obligations.RunKeepsMemory : Prop :=
  ∀ (maxSteps : Nat) (s t : State), run maxSteps s = .next t →
    t.mem = s.mem ∧ (∀ a, readByte a t = readByte a s) ∧ t.cfg = { s.cfg with maxSteps := maxSteps } ∧
    ∃ extra, t.sink = s.sink ++ extra

/-- What the host learns: Run's report is empty exactly when the run ended by exit or by its budget, so it cannot tell the two apart
by the report. -/
def Obligations.ReportIsNoneForExitAndBudget : Prop :=
  ∀ (maxSteps : Nat) (s t : State), Inv s → run maxSteps s = .next t →
    Inv t ∧ (t.report = none ↔ Completed t ∨ CutShort t)

/-! ## The image loader and the boot sequence -/

/-- A buffer that does not begin with the magic is copied unchanged to 0x1000, entry 0x1000; when it does not fit the load fails and
nothing is written (the spec's decision D18; a buffer shorter than the magic is raw by D19; log entries 11 and 17). -/
def Obligations.RawImageLoadsAtBase : Prop :=
  ∀ (size : Nat) (buf : List Byte) (m : Memory), m.wf → buf.take 4 ≠ [0x7F#8, 0x45#8, 0x4C#8, 0x46#8] →
    (size < 0x1000 + buf.length → ∃ e, load size buf m = .failed (.outOfBounds e) m) ∧
    (0x1000 + buf.length ≤ size → ∃ m', load size buf m = .loaded 0x1000#64 m' ∧
      (∀ (i : Nat) (h : i < buf.length), memGet m' (0x1000 + i) = buf[i]) ∧
      ∀ a, a < 0x1000 ∨ 0x1000 + buf.length ≤ a → memGet m' a = memGet m a)

/-- The header fields of a structured image (70_reset_and_hazards.md section 5), each little-endian at its offset; a matching buffer
shorter than 0x3A bytes is malformed. That entry size, count and entry are used as read, with no validation, is the spec's decision
D19 (e) (log entry 17). -/
def Obligations.StructuredHeaderFields : Prop :=
  ∀ (size : Nat) (buf : List Byte) (m : Memory), buf.take 4 = [0x7F#8, 0x45#8, 0x4C#8, 0x46#8] →
    (buf.length < 0x3A → load size buf m = .failed .malformedImage m) ∧
    (0x3A ≤ buf.length → ∃ h, parseHeader buf = some h ∧
      h.entry = ∑ i ∈ Finset.range 8, (buf.getD (0x18 + i) 0#8).toNat * 256 ^ i ∧
      h.phoff = ∑ i ∈ Finset.range 8, (buf.getD (0x20 + i) 0#8).toNat * 256 ^ i ∧
      h.phentsize = ∑ i ∈ Finset.range 2, (buf.getD (0x36 + i) 0#8).toNat * 256 ^ i ∧
      h.phnum = ∑ i ∈ Finset.range 2, (buf.getD (0x38 + i) 0#8).toNat * 256 ^ i ∧
      load size buf m = loadTable size buf h h.phnum 0 m)

/-- One loadable segment: its bytes of the buffer stand at its virtual address, nothing else changes, and the entry is the header's.
A source range outside the buffer is malformed and a target outside the memory is out of bounds, with nothing written (the spec's
decisions D18 and D19, log entries 11 and 17). -/
def Obligations.OneSegmentImageLoads : Prop :=
  ∀ (size : Nat) (buf : List Byte) (m : Memory) (h : ImageHeader) (off va n : Nat), m.wf →
    buf.take 4 = [0x7F#8, 0x45#8, 0x4C#8, 0x46#8] → parseHeader buf = some h → h.phnum = 1 →
    parseProgramHeader buf h.phoff = some (.loadable off va n) →
    (buf.length < off + n → load size buf m = .failed .malformedImage m) ∧
    (off + n ≤ buf.length → size < va + n → ∃ e, load size buf m = .failed (.outOfBounds e) m) ∧
    (off + n ≤ buf.length → va + n ≤ size → ∃ m', load size buf m = .loaded (BitVec.ofNat 64 h.entry) m' ∧
      (∀ i < n, memGet m' (va + i) = buf.getD (off + i) 0#8) ∧
      ∀ a, a < va ∨ va + n ≤ a → memGet m' a = memGet m a)

/-- One entry of the program-header table, wholly: entry `k` stands at `phoff + k * phentsize`. A type outside the buffer is malformed;
a type other than 1 is skipped with nothing else read; a loadable entry with a field outside the buffer is malformed (the last one ends
at +40); otherwise its three fields are the little-endian numbers at +8, +16 and +32, its segment is copied and the next entry follows
on the memory that leaves, or the load ends with the copy's error and the memory so far. After the last entry the header's entry is
answered. Table order, unwrapped offsets and entry sizes used as read are the spec's decision D19 (log entry 17). -/
def Obligations.ProgramHeadersReadInOrder : Prop :=
  ∀ (size : Nat) (buf : List Byte) (h : ImageHeader) (n k : Nat) (m : Memory),
    loadTable size buf h 0 k m = .loaded (BitVec.ofNat 64 h.entry) m ∧
    ∀ base, base = h.phoff + k * h.phentsize →
      (buf.length < base + 4 → loadTable size buf h (n + 1) k m = .failed .malformedImage m) ∧
      (∀ type, base + 4 ≤ buf.length → type = ∑ i ∈ Finset.range 4, (buf.getD (base + i) 0#8).toNat * 256 ^ i →
        (type ≠ 1 → loadTable size buf h (n + 1) k m = loadTable size buf h n (k + 1) m) ∧
        (type = 1 → buf.length < base + 40 → loadTable size buf h (n + 1) k m = .failed .malformedImage m) ∧
        (type = 1 → base + 40 ≤ buf.length → ∀ off va len,
          off = ∑ i ∈ Finset.range 8, (buf.getD (base + 8 + i) 0#8).toNat * 256 ^ i →
          va = ∑ i ∈ Finset.range 8, (buf.getD (base + 16 + i) 0#8).toNat * 256 ^ i →
          len = ∑ i ∈ Finset.range 8, (buf.getD (base + 32 + i) 0#8).toNat * 256 ^ i →
          parseProgramHeader buf base = some (.loadable off va len) ∧
          (∀ m', copySegment size buf off va len m = .ok m' →
            loadTable size buf h (n + 1) k m = loadTable size buf h n (k + 1) m') ∧
          ∀ e, copySegment size buf off va len m = .error e → loadTable size buf h (n + 1) k m = .failed e m))

/-- The copy of one segment: a source range outside the buffer is malformed, a target outside the memory is out of bounds, and otherwise
exactly its bytes are placed. The source range is checked first (the spec's decision D19, log entry 17); a failing copy leaves no
memory at all behind, so nothing of it is written (D18, log entry 11). -/
def Obligations.SegmentCopyPlacesItsBytes : Prop :=
  ∀ (size : Nat) (buf : List Byte) (off va n : Nat) (m : Memory), m.wf →
    (buf.length < off + n → copySegment size buf off va n m = .error .malformedImage) ∧
    (off + n ≤ buf.length → size < va + n → ∃ e, copySegment size buf off va n m = .error (.outOfBounds e)) ∧
    (off + n ≤ buf.length → va + n ≤ size → ∃ m', copySegment size buf off va n m = .ok m' ∧ SegmentPlaced buf off va n m m')

/-- The table is a sequence: its first `n` entries and then the next `j` on the memory they leave, unless one of the first fails, which
ends the load with the memory at that point, so what was copied before it stays. Table order is the spec's decision D19 (log entry
17). -/
def Obligations.ProgramHeaderTableIsSequential : Prop :=
  ∀ (size : Nat) (buf : List Byte) (h : ImageHeader) (n j k : Nat) (m : Memory),
    loadTable size buf h (n + j) k m = match loadTable size buf h n k m with
      | .loaded _ m' => loadTable size buf h j (k + n) m'
      | .failed e m' => .failed e m'

/-- Two loadable segments: the second is placed on the memory the first leaves, so where they overlap the later one's bytes win; when
the second fails the first stays. Table order, the check of a source range and unwrapped offsets are the spec's decision D19 (log entry
17), that the failing copy itself writes nothing is D18 (log entry 11). -/
def Obligations.TwoSegmentImageLoads : Prop :=
  ∀ (size : Nat) (buf : List Byte) (m : Memory) (h : ImageHeader) (off₁ va₁ n₁ off₂ va₂ n₂ : Nat), m.wf →
    buf.take 4 = [0x7F#8, 0x45#8, 0x4C#8, 0x46#8] → parseHeader buf = some h → h.phnum = 2 →
    parseProgramHeader buf h.phoff = some (.loadable off₁ va₁ n₁) →
    parseProgramHeader buf (h.phoff + h.phentsize) = some (.loadable off₂ va₂ n₂) →
    off₁ + n₁ ≤ buf.length → va₁ + n₁ ≤ size →
    ∃ m₁, SegmentPlaced buf off₁ va₁ n₁ m m₁ ∧
      (buf.length < off₂ + n₂ → load size buf m = .failed .malformedImage m₁) ∧
      (off₂ + n₂ ≤ buf.length → size < va₂ + n₂ → ∃ e, load size buf m = .failed (.outOfBounds e) m₁) ∧
      (off₂ + n₂ ≤ buf.length → va₂ + n₂ ≤ size → ∃ m₂, load size buf m = .loaded (BitVec.ofNat 64 h.entry) m₂ ∧
        SegmentPlaced buf off₂ va₂ n₂ m₁ m₂)

/-- The boot sequence leaves the launch state: the loaded memory, the entry in the pc, everything else as constructed; and it meets
the invariant. (Registers 0: D4, log entry 2.) -/
def Obligations.BootLeavesLaunchState : Prop :=
  ∀ (cfg : Config) (buf : List Byte) (s : State), cfg.WellFormed → boot cfg buf = .ready s →
    Inv s ∧ load cfg.memSize buf [] = .loaded s.pc s.mem ∧ s.cfg = cfg ∧ s.mode = .running ∧ s.stop = none ∧
    s.report = none ∧ s.steps = 0 ∧ s.sink = [] ∧ ∀ r : Reg, getReg r s = 0#64

/-! ## Pseudo-instructions (30_encoding.md section 7, general knowledge of the assembler) -/

/-- The long `li`: for an immediate below 2^31 - 2^11 the LUI and ADDI pair leaves exactly the immediate in the register. The rd = 0
clause is D1 (log entry 1). -/
def Obligations.LiPairLoadsConstant : Prop :=
  ∀ (rd : Reg) (imm : BitVec 32) (s : State), imm.toNat < 2 ^ 31 - 2 ^ 11 →
    ∃ i j t u, expand (.liLong rd imm) = [i, j] ∧ exec i s = .next t ∧ exec j t = .next u ∧
      getReg rd u = (if s.cfg.x0Hardwired = true ∧ rd = 0#5 then 0#64 else imm.setWidth 64) ∧
      (∀ r, r ≠ rd → getReg r u = getReg r s)

/-- `nop` changes nothing, and `j` changes the pc alone while register 0 is hard-wired (D1, log entry 1). -/
def Obligations.NopAndJumpLeaveNoTrace : Prop :=
  ∀ (off : BitVec 21) (s : State),
    (∃ i, expand .nop = [i] ∧ exec i s = .next s) ∧
    (s.cfg.x0Hardwired = true → ∃ i, expand (.j off) = [i] ∧
      exec i s = .next { s with pc := s.pc + off.signExtend 64 - 4#64 })

end
end

