-- ==== Sys2Proof/Laws/Decode.lean ====
section
/-! SUPPORT. What the decoder can answer, and the fields of an encoded word. -/

namespace Sys2Proof

/-- Every case of the decode procedure (30_encoding.md R59). -/
theorem decode_cases (w : InstrWord) :
    (opcodeOf w = 0x13#7 ∧ funct3Of w = 0#3 ∧ decode w = .instr (.addi (rdOf w) (rs1Of w) (imm12Of w))) ∨
    (opcodeOf w = 0x13#7 ∧ funct3Of w ≠ 0#3 ∧ decode w = .unhandled (.opImmFunct3 (funct3Of w))) ∨
    (opcodeOf w = 0x37#7 ∧ decode w = .instr (.lui (rdOf w) (imm20Of w))) ∨
    (opcodeOf w = 0x6F#7 ∧ decode w = .instr (.jal (rdOf w) (offset21Of w))) ∨
    (opcodeOf w = 0x73#7 ∧ decode w = .instr .ecall) ∨
    (opcodeOf w ≠ 0x13#7 ∧ opcodeOf w ≠ 0x37#7 ∧ opcodeOf w ≠ 0x6F#7 ∧ opcodeOf w ≠ 0x73#7 ∧
      decode w = .unhandled (.opcode (opcodeOf w))) := by
  unfold decode
  split
  · rename_i h
    split
    · rename_i h'; exact .inl ⟨h, h', rfl⟩
    · rename_i h'; exact .inr (.inl ⟨h, h', rfl⟩)
  · rename_i h1
    split
    · rename_i h; exact .inr (.inr (.inl ⟨h, rfl⟩))
    · rename_i h2
      split
      · rename_i h; exact .inr (.inr (.inr (.inl ⟨h, rfl⟩)))
      · rename_i h3
        split
        · rename_i h; exact .inr (.inr (.inr (.inr (.inl ⟨h, rfl⟩))))
        · rename_i h4; exact .inr (.inr (.inr (.inr (.inr ⟨h1, h2, h3, h4, rfl⟩))))

/-- The bytes of a word, put together again, are the word (20_memory.md R36, R37). -/
theorem wordOfBytes_bytesOfWord (w : InstrWord) :
    wordOfBytes (w.extractLsb' 0 8) (w.extractLsb' 8 8) (w.extractLsb' 16 8) (w.extractLsb' 24 8) = w := by
  apply BitVec.eq_of_getLsbD_eq
  intro i hi
  simp only [wordOfBytes, BitVec.getLsbD_append, BitVec.getLsbD_extractLsb']
  by_cases h1 : i < 8
  · simp [h1]
  · by_cases h2 : i - 8 < 8
    · simp [h1, h2, show 8 + (i - 8) = i by omega]
    · by_cases h3 : i - 8 - 8 < 8
      · simp [h1, h2, h3, show 16 + (i - 8 - 8) = i by omega]
      · simp [h1, h2, h3, show i - 8 - 8 - 8 < 8 by omega, show 24 + (i - 8 - 8 - 8) = i by omega]

/-- Decoding the bytes of a word is decoding the word. -/
theorem decodeBytes_bytesOfWord (w : InstrWord) : decodeBytes (bytesOfWord w) = decode w := by
  simp [bytesOfWord, decodeBytes, wordOfBytes_bytesOfWord]

/-- Bit 0 of a decoded JAL offset is 0 (30_encoding.md R58). -/
theorem offset21Of_even (w : InstrWord) : (offset21Of w).getLsbD 0 = false := by
  simp only [offset21Of, BitVec.getLsbD_append]
  rfl

/-- A decoded instruction is well formed. -/
theorem decode_wellFormed {w : InstrWord} {i : Instr} (h : decode w = .instr i) : i.WellFormed := by
  rcases decode_cases w with ⟨-, -, e⟩ | ⟨-, -, e⟩ | ⟨-, e⟩ | ⟨-, e⟩ | ⟨-, e⟩ | ⟨-, -, -, -, e⟩ <;>
    rw [e] at h <;> cases h <;> simp only [Instr.WellFormed, Instr.wellFormed, offset21Of_even, beq_self_eq_true]

end Sys2Proof
end

