-- ==== Sys2Proof/Laws/Memory.lean ====
section
/-! SUPPORT. The laws of memory: a read after a write, the canonical form, and what each access can answer. -/

namespace Sys2Proof.Machine

theorem memory_wf_nil : Memory.wf [] := by simp [Memory.wf]

theorem memory_wf_tail {c : Host.Cell} {m : Memory} (h : Memory.wf (c :: m)) : m.wf :=
  ⟨h.1.of_cons, fun d hd => h.2 d (List.mem_cons_of_mem _ hd)⟩

theorem memory_wf_head_lt {c : Host.Cell} {m : Memory} (h : Memory.wf (c :: m)) : ∀ d ∈ m, c.1 < d.1 :=
  fun _ hd => List.rel_of_pairwise_cons h.1 hd

/-- An address no cell lists reads as the unlisted byte. -/
theorem memGet_of_not_listed {m : Memory} {a : Nat} (h : ∀ c ∈ m, c.1 ≠ a) : memGet m a = unlistedByte := by
  induction m with
  | nil => rfl
  | cons c m ih =>
    have hc : ¬ a = c.1 := fun e => h c List.mem_cons_self e.symm
    simp only [memGet, hc, if_false]
    exact ih fun d hd => h d (List.mem_cons_of_mem _ hd)

/-- A cell of the memory after a write was there before, or is the cell written. -/
theorem mem_memSet {m : Memory} {a : Nat} {b : Byte} {c : Host.Cell} (h : c ∈ memSet m a b) :
    c ∈ m ∨ (c = (a, b) ∧ b ≠ unlistedByte) := by
  induction m with
  | nil =>
    simp only [memSet] at h
    split at h
    · simp at h
    · rename_i hb
      exact .inr ⟨by simpa using h, hb⟩
  | cons d m ih =>
    simp only [memSet] at h
    split at h
    · split at h
      · exact .inl h
      · rename_i hb
        rcases List.mem_cons.1 h with rfl | h
        · exact .inr ⟨rfl, hb⟩
        · exact .inl h
    · split at h
      · split at h
        · exact .inl (List.mem_cons_of_mem _ h)
        · rename_i hb
          rcases List.mem_cons.1 h with rfl | h
          · exact .inr ⟨rfl, hb⟩
          · exact .inl (List.mem_cons_of_mem _ h)
      · rcases List.mem_cons.1 h with rfl | h
        · exact .inl List.mem_cons_self
        · exact (ih h).imp_left (List.mem_cons_of_mem _)

/-- A write keeps the canonical form. -/
theorem memSet_wf {m : Memory} (h : m.wf) (a : Nat) (b : Byte) : (memSet m a b).wf := by
  refine ⟨?_, fun c hc => ?_⟩
  · induction m with
    | nil =>
      simp only [memSet]
      split <;> simp
    | cons d m ih =>
      have lt := memory_wf_head_lt h
      simp only [memSet]
      split
      · rename_i had
        split
        · exact h.1
        · refine List.pairwise_cons.2 ⟨fun c hc => ?_, h.1⟩
          rcases List.mem_cons.1 hc with rfl | hc
          · exact had
          · exact had.trans (lt c hc)
      · split
        · rename_i hda
          split
          · exact (memory_wf_tail h).1
          · exact List.pairwise_cons.2 ⟨fun c hc => hda ▸ lt c hc, (memory_wf_tail h).1⟩
        · refine List.pairwise_cons.2 ⟨fun c hc => ?_, ih (memory_wf_tail h)⟩
          rcases mem_memSet hc with hc | ⟨rfl, -⟩
          · exact lt c hc
          · show d.1 < a
            omega
  · rcases mem_memSet hc with hc | ⟨rfl, hb⟩
    · exact h.2 c hc
    · exact hb

/-- A write inside a memory lists nothing outside it. -/
theorem memSet_within {m : Memory} {size a : Nat} (h : m.within size) (ha : a < size) (b : Byte) :
    (memSet m a b).within size := by
  intro c hc
  rcases mem_memSet hc with hc | ⟨rfl, -⟩
  · exact h c hc
  · exact ha

/-- A read after a write to the same address gives the value written. -/
theorem memGet_memSet_same {m : Memory} (h : m.wf) (a : Nat) (b : Byte) : memGet (memSet m a b) a = b := by
  induction m with
  | nil =>
    simp only [memSet]
    split
    · rename_i hb; exact hb.symm
    · simp [memGet]
  | cons d m ih =>
    have lt := memory_wf_head_lt h
    simp only [memSet]
    split
    · rename_i had
      split
      · rename_i hb
        rw [hb]
        refine memGet_of_not_listed fun c hc => ?_
        rcases List.mem_cons.1 hc with e | hc
        · rw [e]
          exact Nat.ne_of_gt had
        · have := lt c hc
          omega
      · simp [memGet]
    · split
      · rename_i hda
        split
        · rename_i hb
          rw [hb]
          refine memGet_of_not_listed fun c hc => ?_
          have := lt c hc
          omega
        · simp [memGet]
      · rename_i hda
        simp only [memGet, hda, if_false]
        exact ih (memory_wf_tail h)

/-- A write leaves every other address alone. -/
theorem memGet_memSet_other (m : Memory) {a c : Nat} (b : Byte) (hc : c ≠ a) : memGet (memSet m a b) c = memGet m c := by
  induction m with
  | nil =>
    simp only [memSet]
    split
    · rfl
    · simp [memGet, hc]
  | cons d m ih =>
    simp only [memSet]
    split
    · split
      · rfl
      · simp [memGet, hc]
    · split
      · rename_i hda
        have : ¬ c = d.1 := fun e => hc (e.trans hda.symm)
        split
        · simp [memGet, this]
        · simp [memGet, hc, this]
      · simp only [memGet, ih]

/-- A block write keeps the canonical form. -/
theorem memSetBlock_wf {m : Memory} (h : m.wf) (a : Nat) (bs : List Byte) : (memSetBlock m a bs).wf := by
  induction bs generalizing m a with
  | nil => exact h
  | cons b bs ih => exact ih (memSet_wf h a b) (a + 1)

/-- A block write inside a memory lists nothing outside it. -/
theorem memSetBlock_within {m : Memory} {size a : Nat} {bs : List Byte} (h : m.within size) (ha : a + bs.length ≤ size) :
    (memSetBlock m a bs).within size := by
  induction bs generalizing m a with
  | nil => exact h
  | cons b bs ih =>
    rw [List.length_cons] at ha
    exact ih (memSet_within h (by omega) b) (by omega)

/-- A block write leaves every address outside the block alone. -/
theorem memGet_memSetBlock_outside (m : Memory) {a c : Nat} (bs : List Byte) (hc : c < a ∨ a + bs.length ≤ c) :
    memGet (memSetBlock m a bs) c = memGet m c := by
  induction bs generalizing m a with
  | nil => rfl
  | cons b bs ih =>
    rw [List.length_cons] at hc
    rw [memSetBlock, ih _ (by omega), memGet_memSet_other _ _ (by omega)]

/-- A block write places each byte of the block. -/
theorem memGet_memSetBlock_inside {m : Memory} (h : m.wf) (a i : Nat) (bs : List Byte) (hi : i < bs.length) :
    memGet (memSetBlock m a bs) (a + i) = bs[i] := by
  induction bs generalizing m a i with
  | nil => simp at hi
  | cons b bs ih =>
    cases i with
    | zero =>
      rw [memSetBlock, memGet_memSetBlock_outside _ _ (by omega)]
      exact memGet_memSet_same h a b
    | succ i =>
      have := ih (memSet_wf h a b) (a + 1) i (by simpa using hi)
      rw [memSetBlock, show a + (i + 1) = a + 1 + i by omega, this]
      rfl

/-- What a block write can answer. -/
theorem writeBlockAt_cases (size : Nat) (m : Memory) (a : Nat) (bs : List Byte) :
    (a + bs.length ≤ size ∧ writeBlockAt size m a bs = .ok (memSetBlock m a bs)) ∨
    (size < a + bs.length ∧ writeBlockAt size m a bs = .error ⟨a, bs.length⟩) := by
  by_cases h : a + bs.length ≤ size
  · exact .inl ⟨h, if_pos h⟩
  · exact .inr ⟨Nat.lt_of_not_le h, if_neg h⟩

/-- A host write that succeeds keeps the canonical form and stays inside the memory. -/
theorem writeBlockAt_keeps {size : Nat} {m m' : Memory} {a : Nat} {bs : List Byte} (h : m.wf) (hw : m.within size)
    (ok : writeBlockAt size m a bs = .ok m') : m'.wf ∧ m'.within size := by
  rcases writeBlockAt_cases size m a bs with ⟨hb, e⟩ | ⟨_, e⟩ <;> rw [e] at ok
  · cases ok
    exact ⟨memSetBlock_wf h a bs, memSetBlock_within hw hb⟩
  · cases ok

/-- A byte write that succeeds keeps the canonical form and stays inside the memory. -/
theorem writeByteAt_keeps {size : Nat} {m m' : Memory} {a : Nat} {v : Word} (h : m.wf) (hw : m.within size)
    (ok : writeByteAt size m a v = .ok m') : m'.wf ∧ m'.within size :=
  writeBlockAt_keeps h hw ok

/-- A word write that succeeds keeps the canonical form and stays inside the memory. -/
theorem writeWord32At_keeps {size : Nat} {m m' : Memory} {a : Nat} {v : InstrWord} (h : m.wf) (hw : m.within size)
    (ok : writeWord32At size m a v = .ok m') : m'.wf ∧ m'.within size :=
  writeBlockAt_keeps h hw ok

/-- The memory of a freshly constructed machine, the reset one among them, is in canonical form. -/
theorem construct_mem_wf (cfg : Config) : (State.construct cfg).mem.wf := memory_wf_nil

/-- What a byte read can answer. -/
theorem readByteAt_cases (size : Nat) (m : Memory) (a : Nat) :
    (a < size ∧ readByteAt size m a = .ok (memGet m a)) ∨ (size ≤ a ∧ readByteAt size m a = .error ⟨a, 1⟩) := by
  by_cases h : a + 1 ≤ size
  · exact .inl ⟨h, if_pos h⟩
  · exact .inr ⟨by omega, if_neg h⟩

/-- What a word read can answer. -/
theorem readWord32At_cases (size : Nat) (m : Memory) (a : Nat) :
    (a + 4 ≤ size ∧ readWord32At size m a =
      .ok (wordOfBytes (memGet m a) (memGet m (a + 1)) (memGet m (a + 2)) (memGet m (a + 3)))) ∨
    (size < a + 4 ∧ readWord32At size m a = .error ⟨a, 4⟩) := by
  by_cases h : a + 4 ≤ size
  · exact .inl ⟨h, if_pos h⟩
  · exact .inr ⟨Nat.lt_of_not_le h, if_neg h⟩

end Sys2Proof.Machine
end

