-- ==== Sys2Proof/Laws/Loader.lean ====
section
/-! SUPPORT. The loader keeps the memory's canonical form and writes nothing outside it. -/

namespace Sys2Proof.Machine

/-- The memory a load leaves, loaded or failed. -/
def LoadResult.memory : LoadResult → Memory
  | .loaded _ m => m
  | .failed _ m => m

/-- What a slice of the buffer can answer (70_reset_and_hazards.md R174). -/
theorem slice_cases (buf : List Byte) (o w : Nat) :
    (o + w ≤ buf.length ∧ slice buf o w = some ((buf.drop o).take w)) ∨ (buf.length < o + w ∧ slice buf o w = none) := by
  by_cases h : o + w ≤ buf.length
  · exact .inl ⟨h, if_pos h⟩
  · exact .inr ⟨Nat.lt_of_not_le h, if_neg h⟩

/-- A slice that lies inside the buffer has the length asked for. -/
theorem length_slice {buf bs : List Byte} {o w : Nat} (h : slice buf o w = some bs) : bs.length = w := by
  rcases slice_cases buf o w with ⟨hl, e⟩ | ⟨_, e⟩ <;> rw [e] at h <;> cases h
  rw [List.length_take, List.length_drop]
  omega

/-- What a segment's copy can answer (70_reset_and_hazards.md R172, R174). -/
theorem copySegment_cases (size : Nat) (buf : List Byte) (o v n : Nat) (m : Memory) :
    (buf.length < o + n ∧ copySegment size buf o v n m = .error .malformedImage) ∨
    (o + n ≤ buf.length ∧ size < v + n ∧ copySegment size buf o v n m = .error (.outOfBounds ⟨v, n⟩)) ∨
    (o + n ≤ buf.length ∧ v + n ≤ size ∧
      copySegment size buf o v n m = .ok (memSetBlock m v ((buf.drop o).take n))) := by
  rcases slice_cases buf o n with ⟨h, e⟩ | ⟨h, e⟩
  · have hl := length_slice e
    rcases writeBlockAt_cases size m v ((buf.drop o).take n) with ⟨hb, w⟩ | ⟨hb, w⟩ <;> rw [hl] at hb
    · exact .inr (.inr ⟨h, hb, by simp only [copySegment, e, w]⟩)
    · exact .inr (.inl ⟨h, hb, by simp only [copySegment, e, w, hl]⟩)
  · exact .inl ⟨h, by simp only [copySegment, e]⟩

/-- A segment's copy keeps the canonical form and the bounds. -/
theorem copySegment_keeps {size : Nat} {buf : List Byte} {o v n : Nat} {m m' : Memory} (h : m.wf) (hw : m.within size)
    (ok : copySegment size buf o v n m = .ok m') : m'.wf ∧ m'.within size := by
  rcases copySegment_cases size buf o v n m with ⟨_, e⟩ | ⟨_, _, e⟩ | ⟨_, hb, e⟩ <;> rw [e] at ok <;> cases ok
  exact ⟨memSetBlock_wf h v _, memSetBlock_within hw (by rw [List.length_take]; omega)⟩

/-- The program-header table's copies keep the canonical form and the bounds. -/
theorem loadTable_keeps {size : Nat} {buf : List Byte} {hd : ImageHeader} (n k : Nat) {m : Memory} (h : m.wf)
    (hw : m.within size) : (loadTable size buf hd n k m).memory.wf ∧ (loadTable size buf hd n k m).memory.within size := by
  induction n generalizing k m with
  | zero => exact ⟨h, hw⟩
  | succ n ih =>
    unfold loadTable
    split
    · exact ⟨h, hw⟩
    · exact ih (k + 1) h hw
    · split
      · rename_i e
        obtain ⟨h', hw'⟩ := copySegment_keeps h hw e
        exact ih (k + 1) h' hw'
      · exact ⟨h, hw⟩

/-- A load keeps the canonical form and the bounds, whether it succeeds or fails. -/
theorem load_keeps {size : Nat} {buf : List Byte} {m : Memory} (h : m.wf) (hw : m.within size) :
    (load size buf m).memory.wf ∧ (load size buf m).memory.within size := by
  unfold load
  split
  · unfold loadStructured
    split
    · exact ⟨h, hw⟩
    · exact loadTable_keeps _ 0 h hw
  · unfold loadRaw
    split
    · rename_i e
      exact writeBlockAt_keeps h hw e
    · exact ⟨h, hw⟩

end Sys2Proof.Machine
end

