-- ==== Sys2Proof/Laws/State.lean ====
section
/-! SUPPORT. One lemma per field of State per update of it, so that no proof unfolds a record update, and the register file:
a read after a write. -/

namespace Sys2Proof.Machine

@[simp] theorem setPc_regs (v : Word) (s : State) : (setPc v s).regs = s.regs := rfl
@[simp] theorem setPc_pc (v : Word) (s : State) : (setPc v s).pc = v := rfl
@[simp] theorem setPc_mem (v : Word) (s : State) : (setPc v s).mem = s.mem := rfl
@[simp] theorem setPc_sink (v : Word) (s : State) : (setPc v s).sink = s.sink := rfl
@[simp] theorem setPc_mode (v : Word) (s : State) : (setPc v s).mode = s.mode := rfl
@[simp] theorem setPc_stop (v : Word) (s : State) : (setPc v s).stop = s.stop := rfl
@[simp] theorem setPc_report (v : Word) (s : State) : (setPc v s).report = s.report := rfl
@[simp] theorem setPc_steps (v : Word) (s : State) : (setPc v s).steps = s.steps := rfl
@[simp] theorem setPc_cfg (v : Word) (s : State) : (setPc v s).cfg = s.cfg := rfl

@[simp] theorem advancePc_regs (s : State) : (advancePc s).regs = s.regs := rfl
@[simp] theorem advancePc_pc (s : State) : (advancePc s).pc = s.pc + 4#64 := rfl
@[simp] theorem advancePc_mem (s : State) : (advancePc s).mem = s.mem := rfl
@[simp] theorem advancePc_sink (s : State) : (advancePc s).sink = s.sink := rfl
@[simp] theorem advancePc_mode (s : State) : (advancePc s).mode = s.mode := rfl
@[simp] theorem advancePc_stop (s : State) : (advancePc s).stop = s.stop := rfl
@[simp] theorem advancePc_report (s : State) : (advancePc s).report = s.report := rfl
@[simp] theorem advancePc_steps (s : State) : (advancePc s).steps = s.steps := rfl
@[simp] theorem advancePc_cfg (s : State) : (advancePc s).cfg = s.cfg := rfl

@[simp] theorem sinkAppend_regs (b : Byte) (s : State) : (sinkAppend b s).regs = s.regs := rfl
@[simp] theorem sinkAppend_pc (b : Byte) (s : State) : (sinkAppend b s).pc = s.pc := rfl
@[simp] theorem sinkAppend_mem (b : Byte) (s : State) : (sinkAppend b s).mem = s.mem := rfl
@[simp] theorem sinkAppend_sink (b : Byte) (s : State) : (sinkAppend b s).sink = s.sink ++ [b] := rfl
@[simp] theorem sinkAppend_mode (b : Byte) (s : State) : (sinkAppend b s).mode = s.mode := rfl
@[simp] theorem sinkAppend_stop (b : Byte) (s : State) : (sinkAppend b s).stop = s.stop := rfl
@[simp] theorem sinkAppend_report (b : Byte) (s : State) : (sinkAppend b s).report = s.report := rfl
@[simp] theorem sinkAppend_steps (b : Byte) (s : State) : (sinkAppend b s).steps = s.steps := rfl
@[simp] theorem sinkAppend_cfg (b : Byte) (s : State) : (sinkAppend b s).cfg = s.cfg := rfl

@[simp] theorem countStep_regs (s : State) : (countStep s).regs = s.regs := rfl
@[simp] theorem countStep_pc (s : State) : (countStep s).pc = s.pc := rfl
@[simp] theorem countStep_mem (s : State) : (countStep s).mem = s.mem := rfl
@[simp] theorem countStep_sink (s : State) : (countStep s).sink = s.sink := rfl
@[simp] theorem countStep_mode (s : State) : (countStep s).mode = s.mode := rfl
@[simp] theorem countStep_stop (s : State) : (countStep s).stop = s.stop := rfl
@[simp] theorem countStep_report (s : State) : (countStep s).report = s.report := rfl
@[simp] theorem countStep_steps (s : State) : (countStep s).steps = s.steps + 1 := rfl
@[simp] theorem countStep_cfg (s : State) : (countStep s).cfg = s.cfg := rfl

@[simp] theorem raise_regs (r : Report) (s : State) : (raise r s).regs = s.regs := rfl
@[simp] theorem raise_pc (r : Report) (s : State) : (raise r s).pc = s.pc := rfl
@[simp] theorem raise_mem (r : Report) (s : State) : (raise r s).mem = s.mem := rfl
@[simp] theorem raise_sink (r : Report) (s : State) : (raise r s).sink = s.sink := rfl
@[simp] theorem raise_mode (r : Report) (s : State) : (raise r s).mode = .halted := rfl
@[simp] theorem raise_stop (r : Report) (s : State) : (raise r s).stop = some .fault := rfl
@[simp] theorem raise_report (r : Report) (s : State) : (raise r s).report = some r := rfl
@[simp] theorem raise_steps (r : Report) (s : State) : (raise r s).steps = s.steps := rfl
@[simp] theorem raise_cfg (r : Report) (s : State) : (raise r s).cfg = s.cfg := rfl

@[simp] theorem haltExit_regs (s : State) : (haltExit s).regs = s.regs := rfl
@[simp] theorem haltExit_pc (s : State) : (haltExit s).pc = s.pc := rfl
@[simp] theorem haltExit_mem (s : State) : (haltExit s).mem = s.mem := rfl
@[simp] theorem haltExit_sink (s : State) : (haltExit s).sink = s.sink := rfl
@[simp] theorem haltExit_mode (s : State) : (haltExit s).mode = .halted := rfl
@[simp] theorem haltExit_stop (s : State) : (haltExit s).stop = some .exit := rfl
@[simp] theorem haltExit_report (s : State) : (haltExit s).report = s.report := rfl
@[simp] theorem haltExit_steps (s : State) : (haltExit s).steps = s.steps := rfl
@[simp] theorem haltExit_cfg (s : State) : (haltExit s).cfg = s.cfg := rfl

@[simp] theorem haltBudget_regs (s : State) : (haltBudget s).regs = s.regs := rfl
@[simp] theorem haltBudget_pc (s : State) : (haltBudget s).pc = s.pc := rfl
@[simp] theorem haltBudget_mem (s : State) : (haltBudget s).mem = s.mem := rfl
@[simp] theorem haltBudget_sink (s : State) : (haltBudget s).sink = s.sink := rfl
@[simp] theorem haltBudget_mode (s : State) : (haltBudget s).mode = .halted := rfl
@[simp] theorem haltBudget_stop (s : State) : (haltBudget s).stop = some .budget := rfl
@[simp] theorem haltBudget_report (s : State) : (haltBudget s).report = s.report := rfl
@[simp] theorem haltBudget_steps (s : State) : (haltBudget s).steps = s.steps := rfl
@[simp] theorem haltBudget_cfg (s : State) : (haltBudget s).cfg = s.cfg := rfl

@[simp] theorem raiseFetch_regs (s : State) : (raiseFetch s).regs = s.regs := rfl
@[simp] theorem raiseFetch_pc (s : State) : (raiseFetch s).pc = s.pc := rfl
@[simp] theorem raiseFetch_mem (s : State) : (raiseFetch s).mem = s.mem := rfl
@[simp] theorem raiseFetch_sink (s : State) : (raiseFetch s).sink = s.sink := rfl
@[simp] theorem raiseFetch_mode (s : State) : (raiseFetch s).mode = .halted := rfl
@[simp] theorem raiseFetch_stop (s : State) : (raiseFetch s).stop = some .fault := rfl
@[simp] theorem raiseFetch_report (s : State) : (raiseFetch s).report = some (.outOfBounds s.pc .four .fetch) := rfl
@[simp] theorem raiseFetch_steps (s : State) : (raiseFetch s).steps = s.steps := rfl
@[simp] theorem raiseFetch_cfg (s : State) : (raiseFetch s).cfg = s.cfg := rfl

@[simp] theorem startRun_regs (n : Nat) (s : State) : (startRun n s).regs = s.regs := rfl
@[simp] theorem startRun_pc (n : Nat) (s : State) : (startRun n s).pc = s.pc := rfl
@[simp] theorem startRun_mem (n : Nat) (s : State) : (startRun n s).mem = s.mem := rfl
@[simp] theorem startRun_sink (n : Nat) (s : State) : (startRun n s).sink = s.sink := rfl
@[simp] theorem startRun_mode (n : Nat) (s : State) : (startRun n s).mode = s.mode := rfl
@[simp] theorem startRun_stop (n : Nat) (s : State) : (startRun n s).stop = s.stop := rfl
@[simp] theorem startRun_report (n : Nat) (s : State) : (startRun n s).report = s.report := rfl
@[simp] theorem startRun_steps (n : Nat) (s : State) : (startRun n s).steps = 0 := rfl
@[simp] theorem startRun_cfg (n : Nat) (s : State) : (startRun n s).cfg = { s.cfg with maxSteps := n } := rfl

@[simp] theorem setReg_pc (r : Reg) (v : Word) (s : State) : (setReg r v s).pc = s.pc := by
  unfold setReg; split <;> rfl
@[simp] theorem setReg_mem (r : Reg) (v : Word) (s : State) : (setReg r v s).mem = s.mem := by
  unfold setReg; split <;> rfl
@[simp] theorem setReg_sink (r : Reg) (v : Word) (s : State) : (setReg r v s).sink = s.sink := by
  unfold setReg; split <;> rfl
@[simp] theorem setReg_mode (r : Reg) (v : Word) (s : State) : (setReg r v s).mode = s.mode := by
  unfold setReg; split <;> rfl
@[simp] theorem setReg_stop (r : Reg) (v : Word) (s : State) : (setReg r v s).stop = s.stop := by
  unfold setReg; split <;> rfl
@[simp] theorem setReg_report (r : Reg) (v : Word) (s : State) : (setReg r v s).report = s.report := by
  unfold setReg; split <;> rfl
@[simp] theorem setReg_steps (r : Reg) (v : Word) (s : State) : (setReg r v s).steps = s.steps := by
  unfold setReg; split <;> rfl
@[simp] theorem setReg_cfg (r : Reg) (v : Word) (s : State) : (setReg r v s).cfg = s.cfg := by
  unfold setReg; split <;> rfl

/-- A register read depends on the registers and the switch alone. -/
theorem getReg_congr (r : Reg) (s t : State) (hr : t.regs = s.regs) (hc : t.cfg.x0Hardwired = s.cfg.x0Hardwired) :
    getReg r t = getReg r s := by
  simp [getReg, hr, hc]

@[simp] theorem getReg_setPc (r : Reg) (v : Word) (s : State) : getReg r (setPc v s) = getReg r s := rfl
@[simp] theorem getReg_advancePc (r : Reg) (s : State) : getReg r (advancePc s) = getReg r s := rfl
@[simp] theorem getReg_sinkAppend (r : Reg) (b : Byte) (s : State) : getReg r (sinkAppend b s) = getReg r s := rfl
@[simp] theorem getReg_countStep (r : Reg) (s : State) : getReg r (countStep s) = getReg r s := rfl
@[simp] theorem getReg_raise (r : Reg) (e : Report) (s : State) : getReg r (raise e s) = getReg r s := rfl
@[simp] theorem getReg_haltExit (r : Reg) (s : State) : getReg r (haltExit s) = getReg r s := rfl
@[simp] theorem getReg_haltBudget (r : Reg) (s : State) : getReg r (haltBudget s) = getReg r s := rfl
@[simp] theorem getReg_startRun (r : Reg) (n : Nat) (s : State) : getReg r (startRun n s) = getReg r s := rfl

/-- Another register keeps its value. -/
theorem getReg_setReg_other (q r : Reg) (v : Word) (s : State) (h : q ≠ r) : getReg q (setReg r v s) = getReg q s := by
  have hn : r.toNat ≠ q.toNat := fun e => h (BitVec.eq_of_toNat_eq e.symm)
  unfold setReg
  split
  · rfl
  · simp [getReg, hn]

/-- A register that is not hard-wired reads back what was written. -/
theorem getReg_setReg_same (r : Reg) (v : Word) (s : State) (h : (s.cfg.x0Hardwired && r == 0#5) = false) :
    getReg r (setReg r v s) = v := by
  simp [setReg, getReg, h]

/-- A write to the hard-wired register is discarded. -/
theorem setReg_hardwired (v : Word) (s : State) (h : s.cfg.x0Hardwired = true) : setReg 0#5 v s = s := by
  simp [setReg, h]

/-- The hard-wired register reads 0. -/
theorem getReg_hardwired (s : State) (h : s.cfg.x0Hardwired = true) : getReg 0#5 s = 0#64 := by
  simp [getReg, h]

/-- A register write changes the registers and nothing else. -/
theorem setReg_eq (r : Reg) (v : Word) (s : State) : setReg r v s = { s with regs := (setReg r v s).regs } := by
  unfold setReg; split <;> rfl

end Sys2Proof.Machine
end

