-- ==== Sys2Proof/Laws/Ops.lean ====
section
/-! SUPPORT. One lemma per shared operation, saying once everything it can do; the provers cite these instead of unfolding. -/

namespace Sys2Proof.Machine

/-- What a byte read of the core can answer (20_memory.md R34). -/
theorem readByte_cases (a : Nat) (s : State) :
    (a < s.cfg.memSize ∧ readByte a s = .ok (memGet s.mem a)) ∨
    (s.cfg.memSize ≤ a ∧ readByte a s = .error ⟨a, 1⟩) :=
  readByteAt_cases _ _ _

/-- A byte read depends on the memory and its size alone. -/
theorem readByte_congr (a : Nat) {s t : State} (hm : t.mem = s.mem) (hc : t.cfg = s.cfg) : readByte a t = readByte a s := by
  simp [readByte, hm, hc]

/-- What the fetch can answer (40_execution_loop.md R71). -/
theorem fetch_cases (s : State) :
    (s.pc.toNat + 4 ≤ s.cfg.memSize ∧ fetch s =
      .ok (wordOfBytes (memGet s.mem s.pc.toNat) (memGet s.mem (s.pc.toNat + 1)) (memGet s.mem (s.pc.toNat + 2))
        (memGet s.mem (s.pc.toNat + 3)))) ∨
    (s.cfg.memSize < s.pc.toNat + 4 ∧ fetch s = .error ⟨s.pc.toNat, 4⟩) :=
  readWord32At_cases _ _ _

/-- What the dispatch of an unhandled word does (40_execution_loop.md R73). -/
theorem dispatchUnhandled_cases (why : Unhandled) (w : InstrWord) (p : Word) (s : State) :
    (s.cfg.opImmPolicy = .nop ∧ (∃ f, why = .opImmFunct3 f) ∧ dispatchUnhandled why w p s = s) ∨
    ((s.cfg.opImmPolicy = .fault ∨ ∀ f, why ≠ .opImmFunct3 f) ∧
      dispatchUnhandled why w p s = raise (.unhandledInstruction w p) s) := by
  unfold dispatchUnhandled
  split
  · rename_i f h
    exact .inl ⟨h, ⟨f, rfl⟩, rfl⟩
  · rename_i h
    refine .inr ⟨?_, rfl⟩
    cases hp : s.cfg.opImmPolicy
    · exact .inl rfl
    · exact .inr fun f e => h f e hp

/-- The bytes of `n` addresses from `a` upward. -/
def bytesFrom (m : Memory) (a n : Nat) : List Byte := (List.range n).map fun i => memGet m (a + i)

@[simp] theorem length_bytesFrom (m : Memory) (a n : Nat) : (bytesFrom m a n).length = n := by simp [bytesFrom]

theorem bytesFrom_succ (m : Memory) (a n : Nat) : bytesFrom m a (n + 1) = memGet m a :: bytesFrom m (a + 1) n := by
  simp [bytesFrom, List.range_succ_eq_map, Function.comp_def, Nat.add_assoc, Nat.add_comm 1]

/-- The write call changes the sink and, when it faults, the control state; nothing else (43_system.md R112, R113, R116). -/
theorem writeLoop_frame (n a : Nat) (s : State) :
    ∃ extra mode stop report, writeLoop n a s =
      { s with sink := s.sink ++ extra, mode := mode, stop := stop, report := report } := by
  induction n generalizing a s with
  | zero => exact ⟨[], s.mode, s.stop, s.report, by simp [writeLoop]⟩
  | succ n ih =>
    rcases readByte_cases a s with ⟨-, e⟩ | ⟨-, e⟩ <;> simp only [writeLoop, e]
    · obtain ⟨x, m, st, r, e'⟩ := ih (a + 1) (sinkAppend (memGet s.mem a) s)
      exact ⟨memGet s.mem a :: x, m, st, r, by rw [e']; simp [sinkAppend]⟩
    · exact ⟨[], .halted, some .fault, some (.outOfBounds (BitVec.ofNat 64 a) .one .write), by simp [raise]⟩

/-- The control state after a write call: as before, or the fault of one byte read (R113). -/
theorem writeLoop_control (n a : Nat) (s : State) :
    ((writeLoop n a s).mode = s.mode ∧ (writeLoop n a s).stop = s.stop ∧ (writeLoop n a s).report = s.report) ∨
    ((writeLoop n a s).mode = .halted ∧ (writeLoop n a s).stop = some .fault ∧
      ∃ b, s.cfg.memSize ≤ b ∧ (writeLoop n a s).report = some (.outOfBounds (BitVec.ofNat 64 b) .one .write)) := by
  induction n generalizing a s with
  | zero => exact .inl ⟨rfl, rfl, rfl⟩
  | succ n ih =>
    rcases readByte_cases a s with ⟨-, e⟩ | ⟨h, e⟩ <;> simp only [writeLoop, e]
    · exact ih (a + 1) (sinkAppend (memGet s.mem a) s)
    · exact .inr ⟨rfl, rfl, a, h, rfl⟩

/-- ECALL always answers a next state that differs in the sink and the control state alone (R110, R116). -/
theorem execEcall_frame (s : State) :
    ∃ extra mode stop report, execEcall s =
      .next { s with sink := s.sink ++ extra, mode := mode, stop := stop, report := report } := by
  unfold execEcall
  split
  · obtain ⟨x, m, st, r, e⟩ := writeLoop_frame (getReg regLength s).toNat (getReg regBuffer s).toNat s
    exact ⟨x, m, st, r, by rw [writeCall, e]⟩
  · split
    · exact ⟨[], .halted, some .exit, s.report, by simp [haltExit]⟩
    · exact ⟨[], s.mode, s.stop, s.report, by simp⟩

end Sys2Proof.Machine
end

