-- ==== Sys2Proof/Laws/PerInstr.lean ====
section
/-! SUPPORT. A statement about every instruction as syntax: the word of an instruction matches its own row of the opcode table
(30_encoding.md R59: a word `w` is the instruction of a row exactly when `w & mask = match`). -/

namespace Sys2Proof.Laws.EncodesToRow

/-- The word of `i` is covered by the row of the opcode table that has `i`'s mnemonic. -/
def Statement (i : Instr) : Prop := ∃ row ∈ opcodeTable, row.mnemonic = i.mnemonic ∧ row.covers (encode i) = true

/-- The low seven bits of a word survive the mask 0x7F and nothing else does. -/
theorem low_seven (hi : BitVec 25) (op : BitVec 7) : (hi ++ op : BitVec 32) &&& 0x0000007F#32 = op.setWidth 32 := by
  apply BitVec.eq_of_toNat_eq
  have := op.isLt
  simp only [BitVec.toNat_and, BitVec.toNat_append, BitVec.toNat_setWidth, BitVec.toNat_ofNat]
  rw [show 127 % 2 ^ 32 = 2 ^ 7 - 1 by decide, Nat.and_two_pow_sub_one_eq_mod, ← Nat.shiftLeft_add_eq_or_of_lt op.isLt,
    Nat.shiftLeft_eq]
  omega

/-- The mask 0x707F keeps the opcode and the function-select field. -/
theorem opcode_and_funct3 (hi : BitVec 17) (f3 : BitVec 3) (rd : BitVec 5) (op : BitVec 7) :
    (hi ++ f3 ++ rd ++ op : BitVec 32) &&& 0x0000707F#32 = (f3 ++ 0#5 ++ op : BitVec 15).setWidth 32 := by
  apply BitVec.eq_of_getLsbD_eq
  intro i hi'
  simp only [BitVec.getLsbD_and, BitVec.getLsbD_append, BitVec.getLsbD_setWidth]
  by_cases h1 : i < 7
  · have : (0x0000707F#32).getLsbD i = true := by revert h1; revert i; decide
    simp [h1, this, hi']
  · by_cases h2 : i - 7 < 5
    · have : (0x0000707F#32).getLsbD i = false := by
        have : ∀ j < 5, (0x0000707F#32).getLsbD (7 + j) = false := by decide
        have := this (i - 7) h2
        rwa [show 7 + (i - 7) = i by omega] at this
      simp [h1, h2, this]
    · by_cases h3 : i - 7 - 5 < 3
      · have : (0x0000707F#32).getLsbD i = true := by
          have : ∀ j < 3, (0x0000707F#32).getLsbD (12 + j) = true := by decide
          have := this (i - 7 - 5) h3
          rwa [show 12 + (i - 7 - 5) = i by omega] at this
        simp [h1, h2, h3, this, hi']
      · have : (0x0000707F#32).getLsbD i = false := by
          have : ∀ j < 17, (0x0000707F#32).getLsbD (15 + j) = false := by decide
          have := this (i - 15) (by omega)
          rwa [show 15 + (i - 15) = i by omega] at this
        simp only [this, Bool.and_false, h1, h2, h3, if_false, Bool.false_eq, Bool.and_eq_false_imp, decide_eq_true_eq]
        exact fun _ => BitVec.getLsbD_of_ge f3 _ (by omega)

theorem addi (rd rs1 : Reg) (imm : BitVec 12) : Statement (.addi rd rs1 imm) :=
  ⟨⟨"ADDI", 0x0000707F#32, 0x00000013#32⟩, by decide, rfl, by
    simp only [OpcodeRow.covers, encode, beq_iff_eq]
    exact opcode_and_funct3 (imm ++ rs1) 0#3 rd 0x13#7⟩

theorem lui (rd : Reg) (imm : BitVec 20) : Statement (.lui rd imm) :=
  ⟨⟨"LUI", 0x0000007F#32, 0x00000037#32⟩, by decide, rfl, by
    simp only [OpcodeRow.covers, encode, beq_iff_eq]
    exact low_seven (imm ++ rd) 0x37#7⟩

theorem jal (rd : Reg) (offset : BitVec 21) : Statement (.jal rd offset) :=
  ⟨⟨"JAL", 0x0000007F#32, 0x0000006F#32⟩, by decide, rfl, by
    simp only [OpcodeRow.covers, encode, beq_iff_eq]
    exact low_seven _ 0x6F#7⟩

theorem ecall : Statement .ecall :=
  ⟨⟨"ECALL", 0x0000007F#32, 0x00000073#32⟩, by decide, rfl, by decide⟩

end Sys2Proof.Laws.EncodesToRow
end

