-- ==== Sys2Proof/Laws/Step.lean ====
section
/-! SUPPORT. What a step can do, said once: every invariant is derived from `step_cases`. -/

namespace Sys2Proof.Machine

/-- No instruction faults or is refused. -/
theorem exec_next (i : Instr) (s : State) : ∃ t, exec i s = .next t := by
  cases i with
  | addi rd rs1 imm => exact ⟨_, rfl⟩
  | lui rd imm => exact ⟨_, rfl⟩
  | jal rd offset => exact ⟨_, rfl⟩
  | ecall =>
    obtain ⟨x, m, st, r, e⟩ := execEcall_frame s
    exact ⟨_, e⟩

/-- Everything a move of the run loop can do (40_execution_loop.md R70 to R77): stand still when Halted, end a spent run, fail to
fetch, meet an unhandled word, or run an instruction. -/
theorem step_cases (s : State) :
    (s.mode = .halted ∧ step s = .fault .halted) ∨
    (s.mode = .running ∧ s.cfg.maxSteps ≤ s.steps ∧ step s = .next (haltBudget s)) ∨
    (s.mode = .running ∧ s.steps < s.cfg.maxSteps ∧ s.cfg.memSize < s.pc.toNat + 4 ∧
      step s = .next (countStep (raiseFetch s))) ∨
    (s.mode = .running ∧ s.steps < s.cfg.maxSteps ∧ s.pc.toNat + 4 ≤ s.cfg.memSize ∧
      ∃ w, fetch s = .ok w ∧
        ((∃ why, decode w = .unhandled why ∧
            step s = .next (countStep (dispatchUnhandled why w s.pc (advancePc s)))) ∨
         (∃ i t, decode w = .instr i ∧ exec i (advancePc s) = .next t ∧ step s = .next (countStep t)))) := by
  cases hm : s.mode with
  | halted => exact .inl ⟨rfl, by simp [step, loopMove, hm]⟩
  | running =>
    by_cases hb : s.steps < s.cfg.maxSteps
    · have hs : step s = iterate s := by simp [step, loopMove, hm, hb]
      rcases fetch_cases s with ⟨hp, e⟩ | ⟨hp, e⟩
      · refine .inr (.inr (.inr ⟨rfl, hb, hp, _, e, ?_⟩))
        rw [hs, iterate, e]
        simp only [runWord]
        generalize wordOfBytes _ _ _ _ = w
        cases hd : decode w with
        | instr i =>
          obtain ⟨t, ht⟩ := exec_next i (advancePc s)
          exact .inr ⟨i, t, rfl, ht, by simp [finishStep, ht]⟩
        | unhandled why => exact .inl ⟨why, rfl, rfl⟩
      · exact .inr (.inr (.inl ⟨rfl, hb, hp, by rw [hs, iterate, e]⟩))
    · exact .inr (.inl ⟨rfl, by omega, by simp [step, loopMove, hm, hb]⟩)

/-- A step on an enabled state whose fetch succeeds runs the fetched word (R70, R71). -/
theorem step_of_fetch {s : State} {w : InstrWord} (hm : s.mode = .running) (hb : s.steps < s.cfg.maxSteps)
    (hf : fetch s = .ok w) : step s = runWord w s := by
  simp [step, loopMove, hm, hb, iterate, hf]

/-- Running an instruction word is running its instruction on the advanced state and counting (R72 to R74). -/
theorem runWord_instr {s t : State} {w : InstrWord} {i : Instr} (hd : decode w = .instr i)
    (he : exec i (advancePc s) = .next t) : runWord w s = .next (countStep t) := by
  simp [runWord, hd, he, finishStep]

/-- Placing an instruction keeps the memory's canonical form. -/
theorem withFetchWord_wf {s : State} (h : s.mem.wf) (nbits w : Nat) : (s.withFetchWord nbits w).mem.wf :=
  memSetBlock_wf h _ _

/-- An instruction placed at the pc of an enabled state is the one the next step runs. -/
theorem step_withFetchWord {s : State} (hm : s.mode = .running) (hb : s.steps < s.cfg.maxSteps)
    (hp : s.pc.toNat + 4 ≤ s.cfg.memSize) (hw : s.mem.wf) (nbits w : Nat) :
    step (s.withFetchWord nbits w) = runWord (tableWord nbits w) (s.withFetchWord nbits w) := by
  refine step_of_fetch hm hb ?_
  rcases fetch_cases (s.withFetchWord nbits w) with ⟨-, e⟩ | ⟨h, -⟩
  · rw [e]
    have key (i : Nat) (hi : i < 4) : memGet (s.withFetchWord nbits w).mem (s.pc.toNat + i) =
        (bytesOfWord (tableWord nbits w))[i]'hi :=
      memGet_memSetBlock_inside hw s.pc.toNat i (bytesOfWord (tableWord nbits w)) hi
    have h0 := key 0 (by omega)
    have h1 := key 1 (by omega)
    have h2 := key 2 (by omega)
    have h3 := key 3 (by omega)
    simp only [Nat.add_zero] at h0
    show Except.ok (wordOfBytes (memGet _ s.pc.toNat) (memGet _ (s.pc.toNat + 1)) (memGet _ (s.pc.toNat + 2))
      (memGet _ (s.pc.toNat + 3))) = _
    rw [h0, h1, h2, h3]
    exact congrArg _ (wordOfBytes_bytesOfWord _)
  · exact absurd (show s.cfg.memSize < s.pc.toNat + 4 from h) (by omega)

end Sys2Proof.Machine
end

