-- ==== Sys2Proof/Machine/Flags.lean ====
section
/-! DEFINITION. The flag computations: there are none. "There are no flags and no condition codes" (10_state.md R22), and no
instruction is conditional, so this file declares nothing. -/
end

