-- ==== Sys2Proof/Tests/Slice0.lean ====
section
/-! SUPPORT. The model's own tests, each from a vector of spec/95_test_vectors.md or from the rule its comment names, and for every
statement of Certificates/Slice0/Obligations.lean with hypotheses a witness that meets them, at the boundary of each clause. -/

namespace Sys2Proof.Tests

open Sys2Proof.Machine

/-! ## Helpers -/

/-- The next state, if there is one. -/
def nextOf (o : Host.Outcome State Fault Refusal) : Option State :=
  match o with
  | .next s => some s
  | _ => none

/-- The reset machine with `word` placed at `p` and the pc there. -/
def atWord (p : Word) (word : InstrWord) : State :=
  setPc p { State.reset with mem := memSetBlock [] p.toNat (bytesOfWord word) }

/-- The same with bytes placed at `a`, the three ECALL registers and the number set. -/
def atCall (number buffer length : Word) (a : Nat) (bytes : List Byte) : State :=
  let s := atWord 0x1000#64 0x00000073#32
  setReg 17#5 number (setReg 12#5 length (setReg 11#5 buffer (setReg 10#5 1#64
    { s with mem := memSetBlock s.mem a bytes })))

/-! ## Well-formedness -/

theorem test_odd_jal_offset_refused : (Instr.jal 1#5 3#21).wellFormed = false := by decide
theorem test_even_jal_offset_accepted : (Instr.jal 1#5 2#21).wellFormed = true := by decide
theorem test_addi_lui_ecall_accepted :
    (Instr.addi 31#5 31#5 0x800#12).wellFormed = true ∧ (Instr.lui 0#5 0xFFFFF#20).wellFormed = true ∧
      Instr.ecall.wellFormed = true := by decide

/-! ## Decoding: words written out bit by bit from R52 to R55 -/

/-- imm12 = 111111111111, rs1 = 00101, funct3 = 000, rd = 00110, opcode = 0010011. -/
theorem test_decode_addi_bits :
    decode 0b11111111111100101000001100010011#32 = .instr (.addi 6#5 5#5 0xFFF#12) := by decide
/-- imm20 = 00010010001101000101, rd = 00101, opcode = 0110111. -/
theorem test_decode_lui_bits : decode 0b00010010001101000101001010110111#32 = .instr (.lui 5#5 0x12345#20) := by decide
/-- imm[20] = 0, imm[10:1] = 0001111001, imm[11] = 0, imm[19:12] = 01111111, rd = 00011, opcode = 1101111: +0x7F0F2. -/
theorem test_decode_jal_bits : decode 0b00001111001001111111000111101111#32 = .instr (.jal 3#5 0x7F0F2#21) := by decide
/-- Only instruction bit 20 set: imm[11], so +2048. -/
theorem test_decode_jal_bit_20 : decode 0b00000000000100000000000011101111#32 = .instr (.jal 1#5 2048#21) := by decide
/-- Bits 31 to 7 ignored, opcode = 1110011. -/
theorem test_decode_ecall_bits : decode 0b11111111111111111111111111110011#32 = .instr .ecall := by decide
theorem test_decode_funct3_unhandled : decode 0x00007013#32 = .unhandled (.opImmFunct3 7#3) := by decide
theorem test_decode_all_ones_unhandled : decode 0xFFFFFFFF#32 = .unhandled (.opcode 0x7F#7) := by decide
/-- The byte at the lowest address holds the opcode (R40). -/
theorem test_decode_bytes_little_endian :
    decodeBytes [0x13#8, 0x83#8, 0xF2#8, 0xFF#8] = .instr (.addi 6#5 5#5 0xFFF#12) := by decide
theorem test_decode_short_bytes : decodeBytes [0x13#8, 0x83#8, 0xF2#8] = .unhandled (.shortWord 3) := by decide
theorem test_decode_table_words :
    decodeTableWord 32 0x13 = some (.addi 0#5 0#5 0#12) ∧ decodeTableWord 32 0x37 = some (.lui 0#5 0#20) ∧
      decodeTableWord 32 0x6F = some (.jal 0#5 0#21) ∧ decodeTableWord 32 0x73 = some .ecall ∧
      decodeTableWord 32 0x1013 = none := by decide
/-- The words of 95_test_vectors.md section 2.2 that encode these instructions. -/
theorem test_encode_words :
    encode (.addi 5#5 0#5 0x800#12) = 0x80000293#32 ∧ encode (.lui 7#5 0xFFFFF#20) = 0xFFFFF3B7#32 ∧
      encode (.jal 0#5 (-4#21)) = 0xFFDFF06F#32 ∧ encode (.jal 1#5 0x100000#21) = 0x800000EF#32 ∧
      encode .ecall = 0x00000073#32 := by decide

/-! ## Memory (95_test_vectors.md section 2.1) -/

theorem test_misaligned_word_read :
    (hostWriteWord32 0x100 0xDEADBEEF#32 State.reset).bind (fun s => readWord32 0x101 s) = .ok 0x00DEADBE#32 := by
  decide
theorem test_byte_write_truncates :
    (hostWriteByte 5 0x1FF#64 State.reset).bind (fun s => readByte 5 s) = .ok 0xFF#8 := by decide
theorem test_bounds_do_not_wrap : (readWord32 0xFFFFFFFFFFFFFFFE State.reset).toOption = none := by decide
theorem test_writing_zero_unlists : memSet [(3, 1#8), (5, 2#8)] 3 0#8 = [(5, 2#8)] := by decide

/-! ## Instructions, one step each -/

/-- Section 1.6. -/
theorem test_addi_negative :
    (nextOf (step (setReg 5#5 5#64 (atWord 0x1000#64 0xFFF28313#32)))).map (fun t => (getReg 6#5 t, t.pc, t.mode, t.steps)) =
      some (4#64, 0x1004#64, .running, 1) := by decide
/-- Section 2.3: source and destination the same, the sum wraps. -/
theorem test_addi_wraps_in_place :
    (nextOf (step (setReg 5#5 0xFFFFFFFFFFFFFFFF#64 (atWord 0x1000#64 0x00128293#32)))).map (getReg 5#5) = some 0#64 := by
  decide
/-- Section 2.4: no sign extension, the old value plays no part. -/
theorem test_lui_zero_extends :
    (nextOf (step (setReg 7#5 0xFFFFFFFFFFFFFFFF#64 (atWord 0x1000#64 0xFFFFF3B7#32)))).map (getReg 7#5) =
      some 0xFFFFF000#64 := by decide
/-- Section 2.4: register 0 stays zero. -/
theorem test_lui_to_zero_register :
    (nextOf (step (atWord 0x1000#64 0x00001037#32))).map (fun t => (getReg 0#5 t, t.pc)) = some (0#64, 0x1004#64) := by
  decide
/-- Section 2.5: the largest backward offset wraps. -/
theorem test_jal_backward_wraps :
    (nextOf (step (atWord 0x2000#64 0x800000EF#32))).map (fun t => (getReg 1#5 t, t.pc)) =
      some (0x2004#64, 0xFFFFFFFFFFF02000#64) := by decide
/-- Section 2.6, the rejected choice: register 0 is an ordinary register. -/
theorem test_jal_link_in_permissive_zero_register :
    (nextOf (step { atWord 0x1004#64 0xFFDFF06F#32 with cfg := { resetConfig with x0Hardwired := false } })).map
      (fun t => (getReg 0#5 t, t.pc)) = some (0x1008#64, 0x1000#64) := by decide
/-- Section 2.7: three bytes out, then the fault at the top of memory. -/
theorem test_ecall_write_runs_off_memory :
    (nextOf (step (atCall 64#64 0xFFFD#64 5#64 0xFFFD [0x61#8, 0x62#8, 0x63#8]))).map
      (fun t => (t.sink, t.report, t.mode, t.pc)) =
      some ([0x61#8, 0x62#8, 0x63#8], some (.outOfBounds 0x10000#64 .one .write), .halted, 0x1004#64) := by decide
/-- Section 2.7: 2^32 + 64 is not 64. -/
theorem test_ecall_number_compared_whole :
    (nextOf (step (atCall 0x100000040#64 0x1000#64 4#64 0x1000 []))).map (fun t => (t.sink, t.mode, t.pc)) =
      some ([], .running, 0x1004#64) := by decide

/-! ## Faults, budget, reset -/

/-- Section 2.8: the word's address, not the advanced pc, and no register written. -/
theorem test_unhandled_word :
    (nextOf (step (setReg 5#5 7#64 (atWord 0x1000#64 0x00001293#32)))).map
      (fun t => (t.report, t.pc, t.stop, getReg 5#5 t)) =
      some (some (.unhandledInstruction 0x00001293#32 0x1000#64), 0x1004#64, some .fault, 7#64) := by decide
/-- P6: a fetch that crosses the end of memory leaves the pc. -/
theorem test_fetch_across_the_end :
    (nextOf (step { setPc 0x1004#64 State.reset with cfg := { resetConfig with memSize := 0x1006 } })).map
      (fun t => (t.report, t.pc, t.steps)) = some (some (.outOfBounds 0x1004#64 .four .fetch), 0x1004#64, 1) := by
  decide
/-- Section 2.9: Run of 1 on the two-instruction exit program ends by its budget, Run of 2 by its exit. -/
theorem test_budget_against_exit :
    let s := { setPc 0x1000#64 State.reset with
      mem := memSetBlock [] 0x1000 (bytesOfWord 0x05D00893#32 ++ bytesOfWord 0x00000073#32) }
    (nextOf (run 1 s)).map (fun t => (t.stop, t.report, t.steps)) = some (some .budget, none, 1) ∧
      (nextOf (run 2 s)).map (fun t => (t.stop, t.report, t.steps)) = some (some .exit, none, 2) := by decide
/-- The zero word that empty memory holds is unhandled. -/
theorem test_empty_memory_is_unhandled :
    (nextOf (step State.reset)).map (fun t => (t.report, t.pc)) =
      some (some (.unhandledInstruction 0#32 0#64), 4#64) := by decide
/-- The instruction placed at reset is the first one that runs. -/
theorem test_placed_word_runs_at_reset :
    (nextOf (step (State.reset.withFetchWord 32 0xFFF28313))).map (getReg 6#5) = some 0xFFFFFFFFFFFFFFFF#64 := by
  decide
theorem test_reset_memory_canonical : State.reset.mem.wf := by decide

/-! ## The loader (95_test_vectors.md section 2.10) -/

def imageHead : List Byte :=
  [0x7F#8, 0x45#8, 0x4C#8, 0x46#8, 2#8, 1#8, 1#8, 0#8, 0#8, 0#8, 0#8, 0#8, 0#8, 0#8, 0#8, 0#8]
    ++ [2#8, 0#8, 0xF3#8, 0#8, 1#8, 0#8, 0#8, 0#8, 4#8, 0x20#8, 0#8, 0#8, 0#8, 0#8, 0#8, 0#8]
    ++ [0x40#8] ++ List.replicate 15 0#8
    ++ [0#8, 0#8, 0#8, 0#8, 0x40#8, 0#8, 0x38#8, 0#8, 2#8] ++ List.replicate 7 0#8

def imageTable : List Byte :=
  [3#8, 0#8, 0#8, 0x70#8] ++ List.replicate 52 0#8
    ++ [1#8, 0#8, 0#8, 0#8, 5#8, 0#8, 0#8, 0#8, 0xB0#8] ++ List.replicate 8 0#8 ++ [0x20#8] ++ List.replicate 7 0#8
    ++ [0x20#8] ++ List.replicate 6 0#8 ++ [0x10#8] ++ List.replicate 7 0#8
    ++ [0x20#8] ++ List.replicate 8 0#8 ++ [0x10#8] ++ List.replicate 6 0#8

def imageSegment : List Byte :=
  [0x48#8, 0x69#8, 0x21#8, 0x0A#8, 0x93#8, 8#8, 0xD0#8, 5#8, 0x73#8, 0#8, 0#8, 0#8, 0xEF#8, 0xBE#8, 0xAD#8, 0xDE#8]

/-- The 192-byte image of section 2.10. -/
def image : List Byte := imageHead ++ imageTable ++ imageSegment

/-- It loads; a header, a type and a segment cut short are malformed; in a memory a byte short it is out of bounds with nothing
written, whatever that failure carries (log entry 27). -/
theorem test_image_loads_or_fails :
    load 0x10000 image [] = .loaded 0x2004#64 (memSetBlock [] 0x2000 imageSegment) ∧
      load 0x10000 (image.take 0x39) [] = .failed .malformedImage [] ∧
      load 0x10000 (image.take 0x7C) [] = .failed .malformedImage [] ∧
      load 0x10000 (image.take 0xBF) [] = .failed .malformedImage [] ∧
      (match load 0x200F image [] with
        | .failed (.outOfBounds _) m => m == []
        | _ => false) = true := by decide +kernel
/-- A 3-byte buffer is a raw image (D19). -/
theorem test_short_buffer_is_raw :
    load 0x10000 [0x7F#8, 0x45#8, 0x4C#8] [] = .loaded 0x1000#64 [(0x1000, 0x7F#8), (0x1001, 0x45#8), (0x1002, 0x4C#8)] := by
  decide
theorem test_assembly_names :
    abiName 17#5 = "a7" ∧ render (.addi 6#5 5#5 0xFFF#12) = "addi x6, x5, -1" := by decide

/-- The same image with its table at the loadable entry and one entry: the one-segment image of the property. -/
def oneSegmentImage : List Byte := (image.set 0x20 0x78#8).set 0x38 1#8

/-! ## Witnesses -/

theorem witness_MemoryAccessProperties :
    State.reset.mem.wf ∧ 0xFFFF < State.reset.cfg.memSize ∧ 0xFFFC + 4 ≤ State.reset.cfg.memSize ∧
      State.reset.cfg.memSize ≤ 0x10000 ∧ State.reset.cfg.memSize < 0xFFFD + 4 ∧
      State.reset.cfg.memSize < 0xFFFF + [1#8, 2#8].length := by decide
theorem witness_WordReadIsLittleEndian :
    State.reset.cfg.memSize < 0xFFFD + 4 ∧ 0xFFFC + 4 ≤ State.reset.cfg.memSize := by decide
theorem witness_ByteWriteTruncates :
    State.reset.mem.wf ∧ State.reset.cfg.memSize ≤ 0x10000 ∧ 0xFFFF < State.reset.cfg.memSize ∧ 0xFFFE ≠ 0xFFFF := by decide
theorem witness_MixedWidthAccess :
    State.reset.mem.wf ∧ State.reset.cfg.memSize < 0xFFFD + 4 ∧ 0xFFFC + 4 ≤ State.reset.cfg.memSize ∧ 3 < 4 ∧ 0xFFFB < 0xFFFC ∧
      0xFFFC + 4 ≤ 0x10000 := by decide
theorem witness_BlockWritePlacesItsBytes :
    State.reset.mem.wf ∧ State.reset.cfg.memSize < 0xFFFE + [1#8, 2#8, 3#8].length ∧
      0xFFFD + [1#8, 2#8, 3#8].length ≤ State.reset.cfg.memSize ∧ 0xFFFC < 0xFFFD ∧
      State.reset.cfg.memSize < 0x10001 + ([] : List Byte).length ∧ 0x10000 + ([] : List Byte).length ≤ State.reset.cfg.memSize :=
  by decide
theorem witness_NoAccessNeedsAlignment :
    0xFFFB + 4 ≤ State.reset.cfg.memSize ∧ (atWord 0x1001#64 0x00000013#32).pc.toNat + 4 ≤ State.reset.cfg.memSize := by
  decide
theorem witness_DecodeOfEncode : (Instr.jal 31#5 0x1FFFFE#21).WellFormed := by decide
theorem witness_EncodeOfDecode :
    decode 0x7FFFF0EF#32 = .instr (.jal 1#5 0xFFFFE#21) ∧ Instr.jal 1#5 0xFFFFE#21 ≠ .ecall ∧
      decode 0xFFFFFFF3#32 = .instr .ecall := by decide
theorem witness_DecodeFollowsOpcodeTable :
    decode 0x00000013#32 = .instr (.addi 0#5 0#5 0#12) ∧ 0xFFFF8F93#32 &&& 0x0000707F#32 = 0x00000013#32 ∧
      0xFFFFFFB7#32 &&& 0x0000007F#32 = 0x00000037#32 ∧ 0xFFFFFFEF#32 &&& 0x0000007F#32 = 0x0000006F#32 ∧
      0xFFFFFFF3#32 &&& 0x0000007F#32 = 0x00000073#32 := by decide
theorem witness_AddiWordFields : 0x80000293#32 &&& 0x0000707F#32 = 0x00000013#32 := by decide
/-- The last field bit and the first extended one, on a negative and on a positive immediate. -/
theorem witness_AddiWordFields_clauses :
    (immI 0x800#12).getLsbD 11 = true ∧ (immI 0x800#12).getLsbD 12 = true ∧ (immI 0x7FF#12).getLsbD 11 = false ∧
      (immI 0x7FF#12).getLsbD 63 = false ∧ (immI 0x800#12).toInt = -2048 ∧ (immI 0x7FF#12).toInt = 2047 := by decide
theorem witness_LuiWordFields : 0xFFFFF3B7#32 &&& 0x0000007F#32 = 0x00000037#32 := by decide
/-- Each clause at both ends of its range: bits 1, 10, 11, 12, 19, 20 and 63 of the immediate of a word with those bits mixed. -/
theorem witness_JalWordFields_clauses :
    (immJ (offset21Of 0xC01FF0EF#32)).getLsbD 1 = false ∧ (immJ (offset21Of 0xC01FF0EF#32)).getLsbD 10 = true ∧
      (immJ (offset21Of 0xC01FF0EF#32)).getLsbD 11 = true ∧ (immJ (offset21Of 0xC01FF0EF#32)).getLsbD 12 = true ∧
      (immJ (offset21Of 0xC01FF0EF#32)).getLsbD 19 = true ∧ (immJ (offset21Of 0xC01FF0EF#32)).getLsbD 20 = true ∧
      (immJ (offset21Of 0xC01FF0EF#32)).getLsbD 63 = true := by decide
theorem witness_JalWordFields : 0x800000EF#32 &&& 0x0000007F#32 = 0x0000006F#32 := by decide
theorem witness_RegisterReadAfterWrite : State.reset.cfg.x0Hardwired = true := by decide
theorem witness_AddiCompletes : State.reset.cfg.x0Hardwired = true ∧ (1#5 : Reg) ≠ 0#5 := by decide
/-- The exit, another number, and a write that ends exactly at the top of memory. -/
theorem witness_EcallCompletes :
    let s := atCall 64#64 0xFFFD#64 3#64 0xFFFD [0x61#8, 0x62#8, 0x63#8]
    getReg 17#5 s = 64#64 ∧ (getReg 11#5 s).toNat + (getReg 12#5 s).toNat ≤ s.cfg.memSize ∧
    getReg 17#5 (atCall 93#64 0#64 0#64 0 []) = 93#64 ∧ getReg 17#5 State.reset ≠ 64#64 ∧
      getReg 17#5 State.reset ≠ 93#64 := by decide
theorem witness_StepRunsAddiWord :
    Fetches 0xFFF28313#32 (atWord 0x1000#64 0xFFF28313#32) ∧ 0xFFF28313#32 &&& 0x0000707F#32 = 0x00000013#32 :=
  ⟨⟨⟨rfl, by decide⟩, rfl⟩, by decide⟩
theorem witness_StepRunsAddiWord_zero_register :
    Fetches 0x00128013#32 (atWord 0x1000#64 0x00128013#32) ∧ 0x00128013#32 &&& 0x0000707F#32 = 0x00000013#32 ∧
      (0x00128013#32).extractLsb' 7 5 = 0#5 :=
  ⟨⟨⟨rfl, by decide⟩, rfl⟩, by decide, by decide⟩
theorem witness_StepRunsLuiWord :
    Fetches 0x80000337#32 (atWord 0x1000#64 0x80000337#32) ∧ 0x80000337#32 &&& 0x0000007F#32 = 0x00000037#32 :=
  ⟨⟨⟨rfl, by decide⟩, rfl⟩, by decide⟩
theorem witness_StepRunsJalWord :
    Fetches 0x800000EF#32 (atWord 0xFFFC#64 0x800000EF#32) ∧ decode 0x800000EF#32 = .instr (.jal 1#5 0x100000#21) :=
  ⟨⟨⟨rfl, by decide⟩, rfl⟩, by decide⟩
theorem witness_StepExitHalts :
    Fetches 0x00000073#32 (atCall 93#64 0#64 0#64 0 []) ∧ getReg 17#5 (atCall 93#64 0#64 0#64 0 []) = 93#64 :=
  ⟨⟨⟨rfl, by decide⟩, rfl⟩, by decide⟩
theorem witness_StepOtherCallIsNop :
    Fetches 0x00000073#32 (atCall 65#64 0#64 0#64 0 []) ∧ getReg 17#5 (atCall 65#64 0#64 0#64 0 []) ≠ 64#64 ∧
      getReg 17#5 (atCall 65#64 0#64 0#64 0 []) ≠ 93#64 :=
  ⟨⟨⟨rfl, by decide⟩, rfl⟩, by decide, by decide⟩
/-- The buffer that ends exactly at the top of memory. -/
theorem witness_StepWriteAppendsBuffer :
    let s := atCall 64#64 0xFFFD#64 3#64 0xFFFD [0x61#8, 0x62#8, 0x63#8]
    Fetches 0x00000073#32 s ∧ getReg 17#5 s = 64#64 ∧ (getReg 11#5 s).toNat + (getReg 12#5 s).toNat ≤ s.cfg.memSize :=
  ⟨⟨⟨rfl, by decide⟩, rfl⟩, by decide, by decide⟩
/-- A length of 0 at an address outside the memory. -/
theorem witness_StepWriteAppendsBuffer_zero_length :
    let s := atCall 64#64 0xFFFFFFFFFFFFFFFF#64 0#64 0 []
    Fetches 0x00000073#32 s ∧ getReg 17#5 s = 64#64 ∧ getReg 12#5 s = 0#64 :=
  ⟨⟨⟨rfl, by decide⟩, rfl⟩, by decide, by decide⟩
theorem witness_StepWriteOutOfBounds :
    let s := atCall 64#64 0xFFFD#64 4#64 0xFFFD [0x61#8, 0x62#8, 0x63#8]
    Fetches 0x00000073#32 s ∧ getReg 17#5 s = 64#64 ∧ getReg 12#5 s ≠ 0#64 ∧
      s.cfg.memSize < (getReg 11#5 s).toNat + (getReg 12#5 s).toNat :=
  ⟨⟨⟨rfl, by decide⟩, rfl⟩, by decide, by decide, by decide⟩
theorem witness_EveryOpcode73WordIsEcall : (0x30200073#32).extractLsb' 0 7 = 0x73#7 := by decide
theorem witness_StepRunsDecodedInstruction :
    let s := atWord 0xFFFC#64 0xFFF28313#32
    Enabled s ∧ readByte 0xFFFC s = .ok 0x13#8 ∧ readByte 0xFFFD s = .ok 0x83#8 ∧ readByte 0xFFFE s = .ok 0xF2#8 ∧
      readByte 0xFFFF s = .ok 0xFF#8 ∧ decodeBytes [0x13#8, 0x83#8, 0xF2#8, 0xFF#8] = .instr (.addi 6#5 5#5 0xFFF#12) :=
  ⟨⟨rfl, by decide⟩, rfl, rfl, rfl, rfl, by decide⟩
theorem witness_StepFetchOutOfBounds :
    Enabled (setPc 0xFFFD#64 State.reset) ∧ State.reset.cfg.memSize < (setPc 0xFFFD#64 State.reset).pc.toNat + 4 :=
  ⟨⟨rfl, by decide⟩, by decide⟩
/-- An opcode-0x13 word under both choices of the switch, and another opcode. -/
theorem witness_StepUnhandledWord :
    Fetches 0x00001013#32 (atWord 0x1000#64 0x00001013#32) ∧
      Fetches 0x00001013#32 { atWord 0x1000#64 0x00001013#32 with cfg := { resetConfig with opImmPolicy := .nop } } ∧
      Fetches 0x00000033#32 { atWord 0x1000#64 0x00000033#32 with cfg := { resetConfig with opImmPolicy := .nop } } ∧
      (∀ row ∈ opcodeTable, 0x00001013#32 &&& row.mask ≠ row.pattern) ∧
      (∀ row ∈ opcodeTable, 0x00000033#32 &&& row.mask ≠ row.pattern) :=
  ⟨⟨⟨rfl, by decide⟩, rfl⟩, ⟨⟨rfl, by decide⟩, rfl⟩, ⟨⟨rfl, by decide⟩, rfl⟩, by decide, by decide⟩
theorem witness_BudgetEndsRunSilently :
    let s := { State.reset with steps := 100000 }
    s.mode = .running ∧ s.cfg.maxSteps ≤ s.steps := by decide
theorem witness_HaltedTakesNoStep : (haltBudget State.reset).mode = .halted := rfl
theorem witness_RunningCoreAlwaysSteps : State.reset.mode = .running := rfl
/-- A step that runs an instruction, one that ends a spent run, one that fails to fetch. -/
theorem witness_StepKeepsMemoryAndAllButOneRegister :
    (∃ t, step (atWord 0x1000#64 0x00128293#32) = .next t) ∧ (∃ t, step { State.reset with steps := 100000 } = .next t) ∧
      ∃ t, step (setPc 0xFFFD#64 State.reset) = .next t := ⟨⟨_, rfl⟩, ⟨_, rfl⟩, ⟨_, rfl⟩⟩
/-- A spent budget at a readable word, a failed fetch, and each kind of fetched word. -/
theorem witness_StepChangesOnlyWhatItsInstructionNames :
    (∃ t, step { atWord 0x1000#64 0x000000EF#32 with steps := 100000 } = .next t) ∧
      (∃ t, step (setPc 0xFFFD#64 State.reset) = .next t) ∧
      (∃ t, step (atWord 0x1000#64 0x00128013#32) = .next t) ∧ (∃ t, step (atWord 0x1000#64 0x80000337#32) = .next t) ∧
      (∃ t, step (atWord 0x1000#64 0x800000EF#32) = .next t) ∧
      (∃ t, step (atCall 64#64 0xFFFD#64 5#64 0xFFFD [0x61#8]) = .next t) ∧
      (∃ t, step (atCall 64#64 0xFFFD#64 3#64 0xFFFD [0x61#8]) = .next t) ∧
      (∃ t, step (atCall 93#64 0#64 0#64 0 []) = .next t) ∧ (∃ t, step (atCall 65#64 0#64 0#64 0 []) = .next t) ∧
      ∃ t, step (atWord 0x1000#64 0x00001013#32) = .next t :=
  ⟨⟨_, rfl⟩, ⟨_, rfl⟩, ⟨_, rfl⟩, ⟨_, rfl⟩, ⟨_, rfl⟩, ⟨_, rfl⟩, ⟨_, rfl⟩, ⟨_, rfl⟩, ⟨_, rfl⟩, ⟨_, rfl⟩⟩
/-- A JAL, an unhandled word, a failed fetch, and a spent budget at a readable JAL, which leaves the pc. -/
theorem witness_StepMovesPcByFourOrJal :
    (∃ t, step (atWord 0x1000#64 0x000000EF#32) = .next t) ∧ (∃ t, step (atWord 0x1000#64 0x00000033#32) = .next t) ∧
      (∃ t, step (setPc 0xFFFD#64 State.reset) = .next t) ∧
      ∃ t, step { atWord 0x1000#64 0x000000EF#32 with steps := 100000 } = .next t ∧ t.pc = 0x1000#64 :=
  ⟨⟨_, rfl⟩, ⟨_, rfl⟩, ⟨_, rfl⟩, ⟨_, rfl, rfl⟩⟩
theorem witness_StepKeepsPcParity : ∃ t, step (atWord 0x1001#64 0x002000EF#32) = .next t := ⟨_, rfl⟩

/-- A machine under way: three steps counted, something sent, an ECALL next that writes off the top of memory. -/
def underWay : State :=
  { atCall 64#64 0xFFFD#64 5#64 0xFFFD [0x61#8, 0x62#8, 0x63#8] with steps := 3, sink := [0x0A#8] }

theorem witness_underWay_inv : Inv underWay :=
  ⟨by decide, by decide, by decide, by decide, by decide, by decide,
    by decide, by decide⟩
theorem witness_StepKeepsInvariant : Inv underWay ∧ ∃ t, step underWay = .next t := ⟨witness_underWay_inv, _, rfl⟩
/-- Each of the three faults, from a state that meets the invariant. -/
theorem witness_FaultsArePrecise_write : Inv underWay ∧ ∃ t, step underWay = .next t ∧ t.stop = some .fault :=
  ⟨witness_underWay_inv, _, rfl, rfl⟩
theorem witness_FaultsArePrecise_fetch :
    Inv (setPc 0xFFFD#64 underWay) ∧ ∃ t, step (setPc 0xFFFD#64 underWay) = .next t ∧ t.stop = some .fault :=
  ⟨⟨by decide, by decide, by decide, by decide, by decide, by decide,
    by decide, by decide⟩, _, rfl, rfl⟩
theorem witness_FaultsArePrecise_unhandled :
    Inv (setPc 0x2000#64 underWay) ∧ ∃ t, step (setPc 0x2000#64 underWay) = .next t ∧ t.stop = some .fault :=
  ⟨⟨by decide, by decide, by decide, by decide, by decide, by decide,
    by decide, by decide⟩, _, rfl, rfl⟩
theorem witness_ConstructionMeetsInvariant : ({ resetConfig with memSize := 2 ^ 64 - 1 } : Config).WellFormed := by
  decide
theorem witness_RunAlwaysEnds : underWay.mode = .running := rfl
theorem witness_RunFollowsCoreSteps : underWay.mode = .running := rfl
theorem witness_RunOfZeroFetchesNothing : underWay.mode = .running := rfl
theorem witness_RunKeepsMemory : (∃ t, run 0 underWay = .next t) ∧ ∃ t, run 5 underWay = .next t := ⟨⟨_, rfl⟩, _, rfl⟩
theorem witness_ReportIsNoneForExitAndBudget :
    Inv underWay ∧ (∃ t, run 0 underWay = .next t ∧ t.report = none) ∧ ∃ t, run 5 underWay = .next t ∧ t.report ≠ none :=
  ⟨witness_underWay_inv, ⟨_, rfl, rfl⟩, _, rfl, by decide⟩
/-- A buffer that fits exactly and one that is a byte too long, and the byte below the base. -/
theorem witness_RawImageLoadsAtBase :
    Memory.wf [] ∧ [0x13#8, 0#8, 0#8, 0#8].take 4 ≠ [0x7F#8, 0x45#8, 0x4C#8, 0x46#8] ∧
      0x1003 < 0x1000 + [0x13#8, 0#8, 0#8, 0#8].length ∧ 0x1000 + [0x13#8, 0#8, 0#8, 0#8].length ≤ 0x1004 ∧ 0xFFF < 0x1000 := by
  decide
theorem witness_StructuredHeaderFields :
    (image.take 0x39).take 4 = [0x7F#8, 0x45#8, 0x4C#8, 0x46#8] ∧ (image.take 0x39).length < 0x3A ∧
      (image.take 0x3A).take 4 = [0x7F#8, 0x45#8, 0x4C#8, 0x46#8] ∧ 0x3A ≤ (image.take 0x3A).length := by decide
/-- The whole image fits a memory of 0x2010 bytes exactly; one byte less is out of bounds; in a buffer a byte short the segment passes
its end. -/
theorem witness_OneSegmentImageLoads :
    let short := oneSegmentImage.take 0xBF
    (Memory.wf [] ∧ oneSegmentImage.take 4 = [0x7F#8, 0x45#8, 0x4C#8, 0x46#8] ∧
      parseHeader oneSegmentImage = some ⟨0x2004, 0x78, 0x38, 1⟩ ∧
      parseProgramHeader oneSegmentImage 0x78 = some (.loadable 0xB0 0x2000 0x10) ∧
      0xB0 + 0x10 ≤ oneSegmentImage.length ∧ 0x2000 + 0x10 ≤ 0x2010 ∧ 0x200F < 0x2000 + 0x10 ∧ 0x1FFF < 0x2000) ∧
    short.take 4 = [0x7F#8, 0x45#8, 0x4C#8, 0x46#8] ∧ parseHeader short = some ⟨0x2004, 0x78, 0x38, 1⟩ ∧
      parseProgramHeader short 0x78 = some (.loadable 0xB0 0x2000 0x10) ∧ short.length < 0xB0 + 0x10 := by
  decide +kernel
/-- Entry 0 is skipped, entry 1 is copied, fails in a memory a byte short, has a field that ends a byte past the buffer at 0x9F bytes,
and a type that does at 0x7B. -/
theorem witness_ProgramHeadersReadInOrder :
    0x70000003 = ∑ i ∈ Finset.range 4, (image.getD (0x40 + i) 0#8).toNat * 256 ^ i ∧
      1 = ∑ i ∈ Finset.range 4, (image.getD (0x78 + i) 0#8).toNat * 256 ^ i ∧
      0xB0 = ∑ i ∈ Finset.range 8, (image.getD (0x78 + 8 + i) 0#8).toNat * 256 ^ i ∧
      0x2000 = ∑ i ∈ Finset.range 8, (image.getD (0x78 + 16 + i) 0#8).toNat * 256 ^ i ∧
      0x10 = ∑ i ∈ Finset.range 8, (image.getD (0x78 + 32 + i) 0#8).toNat * 256 ^ i ∧ 0x78 = 0x40 + 1 * 0x38 ∧
      0x40 + 1 * 0x38 + 40 ≤ (image.take 0xA0).length ∧ (image.take 0x9F).length < 0x40 + 1 * 0x38 + 40 ∧
      0x40 + 1 * 0x38 + 4 ≤ (image.take 0x7C).length ∧ (image.take 0x7B).length < 0x40 + 1 * 0x38 + 4 ∧
      (copySegment 0x2010 image 0xB0 0x2000 0x10 []).toOption ≠ none ∧
      (copySegment 0x200F image 0xB0 0x2000 0x10 []).toOption = none := by decide +kernel
/-- The last byte of the buffer and of the memory, and one beyond each. -/
theorem witness_SegmentCopyPlacesItsBytes :
    Memory.wf [] ∧ 0xB0 + 0x10 ≤ image.length ∧ image.length < 0xB0 + 0x11 ∧ 0x2000 + 0x10 ≤ 0x2010 ∧ 0x200F < 0x2000 + 0x10 :=
  ⟨memory_wf_nil, Nat.le_refl 0xC0, Nat.lt_succ_self 0xC0, by decide, by decide⟩
/-- Two loadable segments that overlap in two bytes: four bytes from offset 0 at 0x1FFE, sixteen from 0xB0 at 0x2000. The memory of
0x2010 bytes holds both, that of 0x200F only the first; in a buffer a byte short the second one's source passes its end. -/
theorem witness_TwoSegmentImageLoads :
    let two := ((((image.set 0x40 1#8).set 0x43 0#8).set 0x50 0xFE#8).set 0x51 0x1F#8).set 0x60 4#8
    let short := two.take 0xBF
    (Memory.wf [] ∧ two.take 4 = [0x7F#8, 0x45#8, 0x4C#8, 0x46#8] ∧ parseHeader two = some ⟨0x2004, 0x40, 0x38, 2⟩ ∧
      parseProgramHeader two 0x40 = some (.loadable 0 0x1FFE 4) ∧
      parseProgramHeader two (0x40 + 0x38) = some (.loadable 0xB0 0x2000 0x10) ∧ 0 + 4 ≤ two.length ∧ 0x1FFE + 4 ≤ 0x200F ∧
      0xB0 + 0x10 ≤ two.length ∧ 0x2000 + 0x10 ≤ 0x2010 ∧ 0x200F < 0x2000 + 0x10) ∧
    short.take 4 = [0x7F#8, 0x45#8, 0x4C#8, 0x46#8] ∧ parseHeader short = some ⟨0x2004, 0x40, 0x38, 2⟩ ∧
      parseProgramHeader short 0x40 = some (.loadable 0 0x1FFE 4) ∧
      parseProgramHeader short (0x40 + 0x38) = some (.loadable 0xB0 0x2000 0x10) ∧ 0 + 4 ≤ short.length ∧
      short.length < 0xB0 + 0x10 := by decide +kernel
theorem witness_BootLeavesLaunchState : resetConfig.WellFormed ∧ ∃ s, boot resetConfig [0x13#8, 0#8, 0#8, 0#8] = .ready s :=
  ⟨by decide, _, rfl⟩
theorem witness_LiPairLoadsConstant : (0x7FFFF7FF#32).toNat < 2 ^ 31 - 2 ^ 11 := by decide
theorem witness_NopAndJumpLeaveNoTrace : State.reset.cfg.x0Hardwired = true := rfl

end Sys2Proof.Tests
end

section
/-! The reads of the core and the writes of the host (20_memory.md R34 to R41): what each answers on either side of the bounds rule,
what a read gives after a write, and the statements of the memory family that follow from them. -/

namespace Sys2Proof.Machine

/-! ## A read on either side of the bounds rule -/

/-- A byte read inside the memory (R34). -/
theorem readByte_ok {a : Nat} {s : State} (h : a < s.cfg.memSize) : readByte a s = .ok (memGet s.mem a) := by
  obtain ⟨_, e⟩ | ⟨hout, _⟩ := readByte_cases a s
  · exact e
  · omega

/-- A byte read at or beyond the capacity (R34). -/
theorem readByte_error {a : Nat} {s : State} (h : s.cfg.memSize ≤ a) : readByte a s = .error ⟨a, 1⟩ := by
  obtain ⟨hin, _⟩ | ⟨_, e⟩ := readByte_cases a s
  · omega
  · exact e

/-- A byte reads the same from two states whose memories agree there and have one size. -/
theorem readByte_congr_at {a : Nat} {s t : State} (hc : t.cfg = s.cfg) (hm : memGet t.mem a = memGet s.mem a) :
    readByte a t = readByte a s := by
  simp only [readByte, readByteAt, hc, hm]

/-- A word read inside the memory (R36), at any alignment (R41). -/
theorem readWord32_ok {a : Nat} {s : State} (h : a + 4 ≤ s.cfg.memSize) :
    readWord32 a s =
      .ok (wordOfBytes (memGet s.mem a) (memGet s.mem (a + 1)) (memGet s.mem (a + 2)) (memGet s.mem (a + 3))) := by
  obtain ⟨_, e⟩ | ⟨hout, _⟩ := readWord32At_cases s.cfg.memSize s.mem a
  · exact e
  · omega

/-- A word read whose span exceeds the capacity (R36). -/
theorem readWord32_error {a : Nat} {s : State} (h : s.cfg.memSize < a + 4) : readWord32 a s = .error ⟨a, 4⟩ := by
  obtain ⟨hin, _⟩ | ⟨_, e⟩ := readWord32At_cases s.cfg.memSize s.mem a
  · omega
  · exact e

/-! ## A host write on either side of the bounds rule -/

/-- A block write inside the memory changes the memory and no other piece of state (R38). -/
theorem hostWriteBlock_ok {a : Nat} {bs : List Byte} {s : State} (h : a + bs.length ≤ s.cfg.memSize) :
    hostWriteBlock a bs s = .ok { s with mem := memSetBlock s.mem a bs } := by
  obtain ⟨_, e⟩ | ⟨hout, _⟩ := writeBlockAt_cases s.cfg.memSize s.mem a bs
  · simp only [hostWriteBlock, e, withMemory]
  · omega

/-- A block write whose span exceeds the capacity (R38). -/
theorem hostWriteBlock_error {a : Nat} {bs : List Byte} {s : State} (h : s.cfg.memSize < a + bs.length) :
    hostWriteBlock a bs s = .error ⟨a, bs.length⟩ := by
  obtain ⟨hin, _⟩ | ⟨_, e⟩ := writeBlockAt_cases s.cfg.memSize s.mem a bs
  · omega
  · simp only [hostWriteBlock, e, withMemory]

/-- A byte write is the block write of the value's low byte (R35). -/
theorem hostWriteByte_eq_block (a : Nat) (v : Word) (s : State) : hostWriteByte a v s = hostWriteBlock a [v.setWidth 8] s := rfl

/-- A word write is the block write of the value's four bytes (R37). -/
theorem hostWriteWord32_eq_block (a : Nat) (v : InstrWord) (s : State) :
    hostWriteWord32 a v s = hostWriteBlock a (bytesOfWord v) s := rfl

@[simp] theorem length_bytesOfWord (w : InstrWord) : (bytesOfWord w).length = 4 := rfl

/-! ## A read after a block write -/

/-- A byte of the block reads back. -/
theorem readByte_block_inside {a i : Nat} {bs : List Byte} {s : State} (hs : s.mem.wf) (h : a + bs.length ≤ s.cfg.memSize)
    (hi : i < bs.length) : readByte (a + i) { s with mem := memSetBlock s.mem a bs } = .ok bs[i] := by
  have hin : a + i < s.cfg.memSize := by omega
  rw [← memGet_memSetBlock_inside hs a i bs hi]
  exact readByte_ok hin

/-- A byte outside the block reads as before, inside the memory and beyond it. -/
theorem readByte_block_outside {a b : Nat} {bs : List Byte} (s : State) (hb : b < a ∨ a + bs.length ≤ b) :
    readByte b { s with mem := memSetBlock s.mem a bs } = readByte b s :=
  readByte_congr_at rfl (memGet_memSetBlock_outside s.mem bs hb)

/-- Four addresses that hold the bytes of a word read as the word. -/
theorem readWord32_of_bytes {a : Nat} {v : InstrWord} {s : State} (h : a + 4 ≤ s.cfg.memSize)
    (hv : ∀ (i : Nat) (hi : i < 4), memGet s.mem (a + i) = (bytesOfWord v)[i]) : readWord32 a s = .ok v := by
  have hv0 : memGet s.mem a = (bytesOfWord v)[0] := hv 0 (by omega)
  rw [readWord32_ok h, hv0, hv 1 (by omega), hv 2 (by omega), hv 3 (by omega)]
  exact congrArg _ (wordOfBytes_bytesOfWord v)

/-- A word reads back after its four bytes were written (R39, the round trip). -/
theorem readWord32_block_bytesOfWord {a : Nat} {s : State} (hs : s.mem.wf) (h : a + 4 ≤ s.cfg.memSize) (v : InstrWord) :
    readWord32 a { s with mem := memSetBlock s.mem a (bytesOfWord v) } = .ok v :=
  readWord32_of_bytes h fun i hi => memGet_memSetBlock_inside hs a i (bytesOfWord v) hi

/-! ## The value of a little-endian word -/

/-- A byte put below a bit vector moves it up by eight bits. -/
theorem toNat_append_byte {n : Nat} (hi : BitVec n) (lo : Byte) : (hi ++ lo).toNat = hi.toNat * 2 ^ 8 + lo.toNat := by
  rw [BitVec.toNat_append, ← Nat.shiftLeft_add_eq_or_of_lt lo.isLt, Nat.shiftLeft_eq]

/-- Four bytes as a word, as a number: the byte at the lowest address weighs least (R36, R40). -/
theorem toNat_wordOfBytes (b0 b1 b2 b3 : Byte) :
    (wordOfBytes b0 b1 b2 b3).toNat = b0.toNat + 2 ^ 8 * b1.toNat + 2 ^ 16 * b2.toNat + 2 ^ 24 * b3.toNat := by
  simp only [wordOfBytes, toNat_append_byte]
  omega

/-! ## The statements -/

/-- Settles O1: a host write is a block write, and a block's bytes read back (R39). -/
theorem memoryAccessProperties : Obligations.MemoryAccessProperties := by
  intro s hs
  refine ⟨fun a v ha => ?byteRoundTrip, fun a v ha => ?wordRoundTrip, fun a v ha => ?byteFails, fun a v ha => ?wordFails,
    fun a bs ha => ⟨_, hostWriteBlock_error ha⟩⟩
  case byteRoundTrip =>
    have lowByte : v.setWidth 8 = (v &&& 0xFF#64).setWidth 8 := by
      rw [BitVec.setWidth_and]
      exact (BitVec.and_allOnes).symm
    rw [← lowByte]
    exact ⟨_, hostWriteBlock_ok ha, readByte_block_inside (i := 0) (bs := [v.setWidth 8]) hs ha Nat.one_pos⟩
  case wordRoundTrip => exact ⟨_, hostWriteBlock_ok ha, readWord32_block_bytesOfWord hs ha v⟩
  case byteFails =>
    rw [hostWriteByte_eq_block]
    exact ⟨⟨_, readByte_error ha⟩, _, hostWriteBlock_error (Nat.lt_succ_of_le ha)⟩
  case wordFails =>
    rw [hostWriteWord32_eq_block]
    exact ⟨⟨_, readWord32_error ha⟩, _, hostWriteBlock_error ha⟩

/-- Settles O3: a byte write is the block write of one byte, bits 7 to 0 of the value (R35). -/
theorem byteWriteTruncates : Obligations.ByteWriteTruncates := by
  intro a v s hs
  rw [hostWriteByte_eq_block, BitVec.setWidth_eq_extractLsb' (by omega)]
  refine ⟨fun ha => ⟨_, hostWriteBlock_error (Nat.lt_succ_of_le ha)⟩, fun ha => ⟨_, hostWriteBlock_ok ha, rfl, ?_, ?_⟩⟩
  · exact readByte_block_inside (i := 0) (bs := [v.extractLsb' 0 8]) hs ha Nat.one_pos
  · intro b hb
    exact readByte_block_outside s (by simp only [List.length_singleton]; omega)

/-- Settles O2: inside the memory all five reads succeed, and the word's value is the little-endian sum (R36). -/
theorem wordReadIsLittleEndian : Obligations.WordReadIsLittleEndian := by
  intro a s
  refine ⟨fun h => ⟨_, readWord32_error h⟩, fun h => ⟨_, _, _, _, _, ?_, ?_, ?_, ?_, readWord32_ok h, toNat_wordOfBytes _ _ _ _⟩⟩
  all_goals exact readByte_ok (by omega)

/-- Settles O6: a word access fails by the bounds rule alone, and the fetch is the word read at the pc (R41, R71). -/
theorem noAccessNeedsAlignment : Obligations.NoAccessNeedsAlignment := by
  intro a v s
  rw [hostWriteWord32_eq_block]
  exact ⟨fun h => ⟨⟨_, readWord32_ok h⟩, _, hostWriteBlock_ok h⟩, fun h => ⟨_, readWord32_ok h⟩⟩

end Sys2Proof.Machine
end

section
/-! The words of ADDI, LUI and JAL (30_encoding.md R52 to R54, R56 to R58): what each decodes to, and where the bits of its immediate
come from. -/

namespace Sys2Proof

/-! ## The instruction a word under its mask decodes to -/

/-- A field that the mask keeps whole is read off the pattern that the masked word equals (R59). -/
theorem extractLsb'_eq_of_masked {w mask pattern : InstrWord} {start len : Nat} (h : w &&& mask = pattern)
    (hmask : mask.extractLsb' start len = BitVec.allOnes len) : w.extractLsb' start len = pattern.extractLsb' start len := by
  rw [← h, BitVec.extractLsb'_and, hmask, BitVec.and_allOnes]

/-- The ADDI row of the table of R59. -/
theorem decode_of_addi_mask {w : InstrWord} (h : w &&& 0x0000707F#32 = 0x00000013#32) :
    decode w = .instr (.addi (rdOf w) (rs1Of w) (imm12Of w)) := by
  have hop : opcodeOf w = 0x13#7 := extractLsb'_eq_of_masked h (by decide)
  have hf3 : funct3Of w = 0#3 := extractLsb'_eq_of_masked h (by decide)
  rw [decode, if_pos hop, if_pos hf3]

/-- The LUI row of the table of R59. -/
theorem decode_of_lui_mask {w : InstrWord} (h : w &&& 0x0000007F#32 = 0x00000037#32) :
    decode w = .instr (.lui (rdOf w) (imm20Of w)) := by
  have hop : opcodeOf w = 0x37#7 := extractLsb'_eq_of_masked h (by decide)
  have notOpImm : opcodeOf w ≠ 0x13#7 := by simp [hop]
  rw [decode, if_neg notOpImm, if_pos hop]

/-- The JAL row of the table of R59. -/
theorem decode_of_jal_mask {w : InstrWord} (h : w &&& 0x0000007F#32 = 0x0000006F#32) :
    decode w = .instr (.jal (rdOf w) (offset21Of w)) := by
  have hop : opcodeOf w = 0x6F#7 := extractLsb'_eq_of_masked h (by decide)
  have notOpImm : opcodeOf w ≠ 0x13#7 := by simp [hop]
  have notLui : opcodeOf w ≠ 0x37#7 := by simp [hop]
  rw [decode, if_neg notOpImm, if_neg notLui, if_pos hop]

/-! ## The bits of the immediate fields -/

/-- Each bit of the offset above bit 0, by the field that holds it (R54). -/
theorem getLsbD_offset21Of (w : InstrWord) {k : Nat} (hpos : 0 < k) (hk : k < 21) :
    (offset21Of w).getLsbD k =
      if k ≤ 10 then w.getLsbD (20 + k) else if k = 11 then w.getLsbD 20 else if k ≤ 19 then w.getLsbD k else w.getLsbD 31 := by
  simp only [offset21Of, BitVec.getLsbD_append, BitVec.getLsbD_extractLsb']
  have aboveZero : ¬ k < 1 := by omega
  obtain low | rfl | mid | rfl : k ≤ 10 ∨ k = 11 ∨ (12 ≤ k ∧ k ≤ 19) ∨ k = 20 := by omega
  · have inField : k - 1 < 10 := by omega
    have source : 21 + (k - 1) = 20 + k := by omega
    simp [low, aboveZero, inField, source]
  · rfl
  · obtain ⟨h12, h19⟩ := mid
    have aboveLow : ¬ k - 1 < 10 := by omega
    have aboveEleven : ¬ k - 1 - 10 < 1 := by omega
    have inField : k - 1 - 10 - 1 < 8 := by omega
    have source : 12 + (k - 1 - 10 - 1) = k := by omega
    have notLow : ¬ k ≤ 10 := by omega
    have notEleven : k ≠ 11 := by omega
    simp [aboveZero, aboveLow, aboveEleven, inField, source, notLow, notEleven, h19]
  · rfl

/-- The sign of the offset is bit 31 of the word (R58). -/
theorem msb_offset21Of (w : InstrWord) : (offset21Of w).msb = w.getLsbD 31 := by
  rw [BitVec.msb_eq_getLsbD_last]
  exact getLsbD_offset21Of w (by omega) (by omega)

/-- The sign of the I-immediate is bit 31 of the word (R56). -/
theorem msb_imm12Of (w : InstrWord) : (imm12Of w).msb = w.getLsbD 31 := by
  rw [BitVec.msb_eq_getLsbD_last, imm12Of, BitVec.getLsbD_extractLsb']
  rfl

/-- The word with its twelve low bits cleared (R57). -/
theorem imm20Of_append_zero (w : InstrWord) : imm20Of w ++ 0#12 = w &&& 0xFFFFF000#32 := by
  have hw : w.extractLsb' 12 20 ++ w.extractLsb' 0 12 = w := BitVec.extractLsb'_append_extractLsb'
  calc imm20Of w ++ 0#12
    _ = (w.extractLsb' 12 20 ++ w.extractLsb' 0 12) &&& (BitVec.allOnes 20 ++ 0#12) := by
      rw [BitVec.and_append, BitVec.and_allOnes, BitVec.and_zero, imm20Of]
    _ = w &&& 0xFFFFF000#32 := by
      rw [hw]
      rfl

end Sys2Proof

namespace Sys2Proof.Machine

/-! ## The three immediates -/

/-- The bits of the I-immediate: the field, then its sign (R56). -/
theorem getLsbD_immI (imm : BitVec 12) {k : Nat} (hk : k < 64) :
    (immI imm).getLsbD k = if k < 12 then imm.getLsbD k else imm.msb := by
  rw [immI, BitVec.getLsbD_signExtend, decide_eq_true hk, Bool.true_and]

/-- The sign extension keeps the value of the field as a signed number (R56). -/
@[simp] theorem toInt_immI (imm : BitVec 12) : (immI imm).toInt = imm.toInt :=
  BitVec.toInt_signExtend_of_le (by omega)

/-- The signed range of a 12-bit field (R56). -/
theorem immI_range (imm : BitVec 12) : -2048 ≤ (immI imm).toInt ∧ (immI imm).toInt ≤ 2047 := by
  rw [toInt_immI]
  exact ⟨imm.le_toInt, BitVec.toInt_le⟩

/-- The signed range of the I-immediate as an unsigned 64-bit number. -/
theorem toNat_immI_range (imm : BitVec 12) : (immI imm).toNat ≤ 0x7FF ∨ 0xFFFFFFFFFFFFF800 ≤ (immI imm).toNat := by
  obtain ⟨hlow, hhigh⟩ := immI_range imm
  rw [BitVec.toInt_eq_toNat_cond] at hlow hhigh
  split at hlow <;> omega

/-- The U-immediate as a number: the field times 0x1000 (R57). -/
theorem toNat_immU (imm : BitVec 20) : (immU imm).toNat = imm.toNat * 0x1000 := by
  rw [immU, BitVec.toNat_setWidth_of_le (by omega), BitVec.toNat_append, BitVec.toNat_zero, Nat.or_zero, Nat.shiftLeft_eq]

/-- The U-immediate of a word is zero-extended, not sign-extended (R57). -/
theorem immU_imm20Of (w : InstrWord) : immU (imm20Of w) = (w &&& 0xFFFFF000#32).setWidth 64 := by
  rw [immU, imm20Of_append_zero]

/-- The bits of the J-immediate: the offset, then its sign (R58). -/
theorem getLsbD_immJ (offset : BitVec 21) {k : Nat} (hk : k < 64) :
    (immJ offset).getLsbD k = if k < 21 then offset.getLsbD k else offset.msb := by
  rw [immJ, BitVec.getLsbD_signExtend, decide_eq_true hk, Bool.true_and]

/-! ## The statements -/

/-- Settles O11: the ADDI row of the table, and the sign extension of its field (R52, R56). -/
theorem addiWordFields : Obligations.AddiWordFields := by
  intro w h
  obtain ⟨hlow, hhigh⟩ := immI_range (imm12Of w)
  refine ⟨imm12Of w, decode_of_addi_mask h, rfl, fun k hk => ?bits, hlow, hhigh, toNat_immI_range _⟩
  case bits =>
    rw [getLsbD_immI _ hk, msb_imm12Of]
    split
    · rw [imm12Of, BitVec.getLsbD_extractLsb', decide_eq_true ‹k < 12›, Bool.true_and]
    · rfl

/-- Settles O12: the LUI row of the table, and its field at bits 31 to 12 (R53, R57). -/
theorem luiWordFields : Obligations.LuiWordFields := by
  intro w h
  have hfield : (imm20Of w).toNat < 2 ^ 20 := (imm20Of w).isLt
  refine ⟨imm20Of w, decode_of_lui_mask h, rfl, immU_imm20Of w, ?_, ?_⟩ <;> rw [toNat_immU] <;> omega

/-- Settles O13: the JAL row of the table, and the sign extension of its scattered field (R54, R58). -/
theorem jalWordFields : Obligations.JalWordFields := by
  intro w h
  refine ⟨offset21Of w, decode_of_jal_mask h, fun k hpos hk => ?bits⟩
  case bits =>
    rw [getLsbD_immJ _ hk, msb_offset21Of]
    split
    · exact getLsbD_offset21Of w hpos ‹k < 21›
    · rw [if_neg (by omega), if_neg (by omega), if_neg (by omega)]

end Sys2Proof.Machine
end

section
/-! The end of a run whose step bound is reached (40_execution_loop.md R81). -/

namespace Sys2Proof.Machine

/-- A step on a Running state whose budget is spent halts the core without an error (R81). -/
theorem step_of_budget_spent {s : State} (hm : s.mode = .running) (hb : s.cfg.maxSteps ≤ s.steps) :
    step s = .next (haltBudget s) := by
  obtain ⟨hhalted, _⟩ | ⟨_, _, e⟩ | ⟨_, hleft, _⟩ | ⟨_, hleft, _⟩ := step_cases s
  · rw [hm] at hhalted
    contradiction
  · exact e
  · omega
  · omega

/-- The end of a spent run writes neither the report nor the sink, the two things the host sees. -/
@[simp] theorem hostView_haltBudget (s : State) : hostView (haltBudget s) = hostView s := by
  simp only [hostView, haltBudget_report, haltBudget_sink]

/-- Settles O31: the step is `haltBudget`, which writes mode and stop alone (R81). -/
theorem budgetEndsRunSilently : Obligations.BudgetEndsRunSilently := by
  intro s hm hb
  exact ⟨haltBudget s, step_of_budget_spent hm hb, rfl, hostView_haltBudget s⟩

end Sys2Proof.Machine
end

section
/-! The step that fetches ECALL, and the exit call (40_execution_loop.md R80, R82; 43_system.md R110, R114). -/

namespace Sys2Proof.Machine

/-- The ECALL row of the table of R59, at the word whose ignored bits are 0. -/
theorem decode_ecall_word : decode 0x00000073#32 = .instr .ecall := by decide

/-- A step that fetches ECALL runs the system call on the advanced state and counts (R72 to R74). -/
theorem step_of_fetch_ecall {s t : State} (hf : Fetches 0x00000073#32 s) (he : execEcall (advancePc s) = .next t) :
    step s = .next (countStep t) := by
  obtain ⟨⟨hm, hb⟩, hword⟩ := hf
  rw [step_of_fetch hm hb hword]
  exact runWord_instr decode_ecall_word he

/-- The call with number 93 exits and writes nothing (R114). -/
theorem execEcall_exit {s : State} (h : getReg 17#5 s = 93#64) : execEcall s = .next (haltExit s) := by
  have notWrite : getReg regNumber s ≠ callWrite := by
    rw [regNumber, h]
    decide
  rw [execEcall, if_neg notWrite]
  exact if_pos h

/-- A Halted core takes no step (R82). -/
theorem step_of_halted {s : State} (h : s.mode = .halted) : step s = .fault .halted := by
  rw [step, loopMove, h]

/-- Settles O22: the step is `haltExit` on the advanced state, counted, and its result is Halted (R80, R114). -/
theorem stepExitHalts : Obligations.StepExitHalts := by
  intro s hf hnumber
  have hexit : execEcall (advancePc s) = .next (haltExit (advancePc s)) :=
    execEcall_exit (by rw [getReg_advancePc, hnumber])
  exact ⟨_, step_of_fetch_ecall hf hexit, rfl, step_of_halted rfl⟩

end Sys2Proof.Machine
end

section
/-! The decoder and the encoder are inverse to each other (30_encoding.md R51 to R59): the fields of a word put together from parts,
and a word put together again from its fields. -/

namespace Sys2Proof

/-! ## The fields of a word put together from parts (R51) -/

@[simp] theorem opcodeOf_append (hi : BitVec 25) (op : BitVec 7) : opcodeOf (hi ++ op) = op :=
  BitVec.extractLsb'_append_eq_right

@[simp] theorem rdOf_append (hi : BitVec 20) (rd : Reg) (op : BitVec 7) : rdOf (hi ++ rd ++ op) = rd := by
  rw [rdOf, BitVec.extractLsb'_append_eq_of_le (by decide)]
  exact BitVec.extractLsb'_append_eq_right

@[simp] theorem imm20Of_append (imm : BitVec 20) (rd : Reg) (op : BitVec 7) : imm20Of (imm ++ rd ++ op) = imm := by
  rw [imm20Of, BitVec.extractLsb'_append_eq_of_le (by decide)]
  exact BitVec.extractLsb'_append_eq_left

@[simp] theorem funct3Of_append (hi : BitVec 17) (f3 : BitVec 3) (rd : Reg) (op : BitVec 7) :
    funct3Of (hi ++ f3 ++ rd ++ op) = f3 := by
  rw [funct3Of]
  repeat rw [BitVec.extractLsb'_append_eq_of_le (by decide)]
  exact BitVec.extractLsb'_append_eq_right

@[simp] theorem rs1Of_append (hi : BitVec 12) (rs1 : Reg) (f3 : BitVec 3) (rd : Reg) (op : BitVec 7) :
    rs1Of (hi ++ rs1 ++ f3 ++ rd ++ op) = rs1 := by
  rw [rs1Of]
  repeat rw [BitVec.extractLsb'_append_eq_of_le (by decide)]
  exact BitVec.extractLsb'_append_eq_right

@[simp] theorem imm12Of_append (imm : BitVec 12) (rs1 : Reg) (f3 : BitVec 3) (rd : Reg) (op : BitVec 7) :
    imm12Of (imm ++ rs1 ++ f3 ++ rd ++ op) = imm := by
  rw [imm12Of]
  repeat rw [BitVec.extractLsb'_append_eq_of_le (by decide)]
  exact BitVec.extractLsb'_eq_self

/-- The upper field of a JAL word holds the four parts of the offset in the order of R54; R58 reads them in the order of the bits. -/
theorem offset21Of_append (imm : BitVec 20) (rd : Reg) (op : BitVec 7) :
    offset21Of (imm ++ rd ++ op) =
      imm.extractLsb' 19 1 ++ imm.extractLsb' 0 8 ++ imm.extractLsb' 8 1 ++ imm.extractLsb' 9 10 ++ 0#1 := by
  rw [offset21Of]
  repeat rw [BitVec.extractLsb'_append_eq_of_le (by decide)]

/-- The four parts of the upper field of a JAL word, each at its place (R54). -/
theorem extractLsb'_jal_parts (b20 : BitVec 1) (b10 : BitVec 10) (b11 : BitVec 1) (b19 : BitVec 8) :
    (b20 ++ b10 ++ b11 ++ b19 : BitVec 20).extractLsb' 19 1 = b20 ∧
    (b20 ++ b10 ++ b11 ++ b19 : BitVec 20).extractLsb' 9 10 = b10 ∧
    (b20 ++ b10 ++ b11 ++ b19 : BitVec 20).extractLsb' 8 1 = b11 ∧
    (b20 ++ b10 ++ b11 ++ b19 : BitVec 20).extractLsb' 0 8 = b19 := by
  refine ⟨?_, ?_, ?_, BitVec.extractLsb'_append_eq_right⟩ <;> repeat rw [BitVec.extractLsb'_append_eq_of_le (by decide)]
  · exact BitVec.extractLsb'_eq_self
  · exact BitVec.extractLsb'_append_eq_right
  · exact BitVec.extractLsb'_append_eq_right

/-- An offset is the parts of it that the J-type has a place for, put together with its bit 0. -/
theorem offset_eq_append (offset : BitVec 21) :
    offset.extractLsb' 20 1 ++ offset.extractLsb' 12 8 ++ offset.extractLsb' 11 1 ++ offset.extractLsb' 1 10 ++
      offset.extractLsb' 0 1 = offset := by
  simp (disch := decide) only [BitVec.extractLsb'_append_extractLsb'_eq_extractLsb']
  exact BitVec.extractLsb'_eq_self

/-- The low bit of an even offset, as a field of one bit. -/
theorem extractLsb'_zero_one_of_even {offset : BitVec 21} (h : offset.getLsbD 0 = false) : offset.extractLsb' 0 1 = 0#1 := by
  apply BitVec.eq_of_getLsbD_eq
  intro k hk
  obtain rfl : k = 0 := by omega
  simpa [BitVec.getLsbD_extractLsb'] using h

/-- Settles O8: each field of the instruction's word is the operand it was made from (R52 to R55). -/
theorem decodeOfEncode : Obligations.DecodeOfEncode := by
  intro i hwf
  cases i with
  | addi rd rs1 imm => simp [decode, encode]
  | lui rd imm => simp [decode, encode]
  | jal rd offset =>
    have even : offset.getLsbD 0 = false := beq_iff_eq.1 hwf
    have back : offset21Of (encode (.jal rd offset)) = offset := by
      obtain ⟨e20, e10, e11, e19⟩ := extractLsb'_jal_parts (offset.extractLsb' 20 1) (offset.extractLsb' 1 10)
        (offset.extractLsb' 11 1) (offset.extractLsb' 12 8)
      rw [encode, offset21Of_append, e20, e10, e11, e19, ← extractLsb'_zero_one_of_even even, offset_eq_append]
    rw [decode, back]
    simp [encode]
  | ecall => decide

/-! ## A word put together again from its fields -/

/-- A word is its four high fields and its opcode, put together. -/
theorem word_eq_addi_fields (w : InstrWord) : imm12Of w ++ rs1Of w ++ funct3Of w ++ rdOf w ++ opcodeOf w = w := by
  unfold imm12Of rs1Of funct3Of rdOf opcodeOf
  simp (disch := decide) only [BitVec.extractLsb'_append_extractLsb'_eq_extractLsb']
  exact BitVec.extractLsb'_eq_self

/-- A word is its upper immediate, its destination and its opcode, put together. -/
theorem word_eq_lui_fields (w : InstrWord) : imm20Of w ++ rdOf w ++ opcodeOf w = w := by
  unfold imm20Of rdOf opcodeOf
  simp (disch := decide) only [BitVec.extractLsb'_append_extractLsb'_eq_extractLsb']
  exact BitVec.extractLsb'_eq_self

/-- The parts of a decoded offset that the J-type has a place for, by the bits of the word that hold them (R54). -/
theorem extractLsb'_offset21Of (w : InstrWord) :
    (offset21Of w).extractLsb' 20 1 = w.extractLsb' 31 1 ∧ (offset21Of w).extractLsb' 1 10 = w.extractLsb' 21 10 ∧
    (offset21Of w).extractLsb' 11 1 = w.extractLsb' 20 1 ∧ (offset21Of w).extractLsb' 12 8 = w.extractLsb' 12 8 := by
  unfold offset21Of
  refine ⟨?_, ?_, ?_, ?_⟩ <;> repeat rw [BitVec.extractLsb'_append_eq_of_le (by decide)]
  · exact BitVec.extractLsb'_eq_self
  · exact BitVec.extractLsb'_append_eq_right
  · exact BitVec.extractLsb'_append_eq_right
  · exact BitVec.extractLsb'_append_eq_right

/-- The word of a decoded JAL has the upper field of the word that was decoded. -/
theorem encode_jal_fields (w : InstrWord) : encode (.jal (rdOf w) (offset21Of w)) = imm20Of w ++ rdOf w ++ 0x6F#7 := by
  obtain ⟨e20, e10, e11, e19⟩ := extractLsb'_offset21Of w
  rw [encode, e20, e10, e11, e19]
  simp (disch := decide) only [BitVec.extractLsb'_append_extractLsb'_eq_extractLsb']
  rfl

/-- Settles O9: a decoded instruction other than ECALL keeps every field of its word (R52 to R54, D3). -/
theorem encodeOfDecode : Obligations.EncodeOfDecode := by
  intro w i h
  refine ⟨decode_wellFormed h, ?_⟩
  obtain ⟨hop, hf3, e⟩ | ⟨-, -, e⟩ | ⟨hop, e⟩ | ⟨hop, e⟩ | ⟨hop, e⟩ | ⟨-, -, -, -, e⟩ := decode_cases w <;>
    rw [e] at h <;> cases h
  · exact ⟨fun _ => by rw [encode, ← hop, ← hf3, word_eq_addi_fields], nofun⟩
  · exact ⟨fun _ => by rw [encode, ← hop, word_eq_lui_fields], nofun⟩
  · exact ⟨fun _ => by rw [encode_jal_fields, ← hop, word_eq_lui_fields], nofun⟩
  · exact ⟨fun notEcall => absurd rfl notEcall, fun _ => hop⟩

/-! ## The opcode table (R59) -/

/-- The word of every instruction is covered by the row of its mnemonic. -/
theorem encodesToRow (i : Instr) : Laws.EncodesToRow.Statement i := by
  cases i with
  | addi rd rs1 imm => exact Laws.EncodesToRow.addi rd rs1 imm
  | lui rd imm => exact Laws.EncodesToRow.lui rd imm
  | jal rd offset => exact Laws.EncodesToRow.jal rd offset
  | ecall => exact Laws.EncodesToRow.ecall

/-- The mask of the rows without a function-select field keeps the opcode alone. -/
theorem and_opcode_mask (w : InstrWord) : w &&& 0x0000007F#32 = (opcodeOf w).setWidth 32 := by
  have hw : w.extractLsb' 7 25 ++ opcodeOf w = w := BitVec.extractLsb'_append_extractLsb'
  rw [← Laws.EncodesToRow.low_seven (w.extractLsb' 7 25) (opcodeOf w), hw]

/-- The ECALL row of the table of R59 (D3). -/
theorem decode_of_ecall_opcode {w : InstrWord} (hop : opcodeOf w = 0x73#7) : decode w = .instr .ecall := by
  simp [decode, hop]

/-- Settles O10: a decoded word is its instruction's word up to ECALL's ignored bits, and each mask pins the fields `decode` reads. -/
theorem decodeFollowsOpcodeTable : Obligations.DecodeFollowsOpcodeTable := by
  intro w
  refine ⟨fun i h => ?row, fun row hrow hw => ?instr⟩
  case row =>
    obtain ⟨-, notEcall, isEcall⟩ := encodeOfDecode w i h
    by_cases hi : i = .ecall
    · refine ⟨⟨"ECALL", 0x0000007F#32, 0x00000073#32⟩, by decide, by rw [hi, Instr.mnemonic], ?_⟩
      have hop : opcodeOf w = 0x73#7 := isEcall hi
      rw [and_opcode_mask, hop]
      rfl
    · obtain ⟨row, hrow, hname, hcovers⟩ := encodesToRow i
      refine ⟨row, hrow, hname, ?_⟩
      rwa [notEcall hi, OpcodeRow.covers, beq_iff_eq] at hcovers
  case instr =>
    simp only [opcodeTable, List.mem_cons, List.not_mem_nil, or_false] at hrow
    obtain rfl | rfl | rfl | rfl := hrow
    · exact ⟨_, decode_of_addi_mask hw, rfl⟩
    · exact ⟨_, decode_of_lui_mask hw, rfl⟩
    · exact ⟨_, decode_of_jal_mask hw, rfl⟩
    · exact ⟨_, decode_of_ecall_opcode (extractLsb'_eq_of_masked hw (by decide)), rfl⟩

/-- Settles O7: eight closed words, each decoded by its bits (95_test_vectors.md section 2.2). -/
theorem specWordsDecode : Obligations.SpecWordsDecode := by
  refine ⟨?_, ?_, ?_, ?_, ?_, ?_, ?_, ?_⟩ <;> decide

end Sys2Proof
end

section
/-! A word write and a block write of the host, seen by byte reads (20_memory.md R37, R38). -/

namespace Sys2Proof.Machine

/-- Byte `k` of a word is its bits 8k+7 to 8k (R37). -/
theorem getElem_bytesOfWord (w : InstrWord) {k : Nat} (hk : k < 4) : (bytesOfWord w)[k] = w.extractLsb' (8 * k) 8 := by
  obtain rfl | rfl | rfl | rfl : k = 0 ∨ k = 1 ∨ k = 2 ∨ k = 3 := by omega
  all_goals rfl

/-- Settles O5: a block write is `memSetBlock` inside the bounds and fails outside them (R38, D8). -/
theorem blockWritePlacesItsBytes : Obligations.BlockWritePlacesItsBytes := by
  intro a bs s hs
  refine ⟨fun out => ⟨_, hostWriteBlock_error out⟩, fun inside => ⟨_, hostWriteBlock_ok inside, rfl, ?_, ?_⟩⟩
  · exact fun i hi => readByte_block_inside hs inside hi
  · exact fun b hb => readByte_block_outside s hb

/-- Settles O4: a word write is the block write of the word's four bytes (R37, D8). -/
theorem mixedWidthAccess : Obligations.MixedWidthAccess := by
  intro a v s hs
  rw [hostWriteWord32_eq_block]
  refine ⟨fun out => ⟨_, hostWriteBlock_error out⟩, fun inside => ⟨_, hostWriteBlock_ok inside, rfl, fun k hk => ?_, ?_⟩⟩
  · rw [← getElem_bytesOfWord v hk]
    exact readByte_block_inside hs inside hk
  · exact fun b hb => readByte_block_outside s hb

end Sys2Proof.Machine
end

section
/-! The register file, and what ADDI, LUI and JAL do to it (10_state.md R11, R12; 41_integer_computational.md R91, R93;
42_control_transfer.md R100). -/

namespace Sys2Proof.Machine

/-! ## A read after a write -/

/-- The register written reads the value, or 0 where it is the hard-wired one (R12, D1). -/
theorem getReg_setReg_self (r : Reg) (v : Word) (s : State) :
    getReg r (setReg r v s) = if s.cfg.x0Hardwired = true ∧ r = 0#5 then 0#64 else v := by
  by_cases h : s.cfg.x0Hardwired = true ∧ r = 0#5
  · obtain ⟨hwired, rfl⟩ := h
    rw [if_pos ⟨hwired, rfl⟩, setReg_hardwired v s hwired, getReg_hardwired s hwired]
  · rw [if_neg h]
    exact getReg_setReg_same r v s (by simpa using h)

/-- Every other register keeps its value, and so does a hard-wired register 0 whichever register is written (R12, D1). -/
theorem getReg_setReg_keeps {q r : Reg} {s : State} (v : Word) (h : q ≠ r ∨ s.cfg.x0Hardwired = true ∧ q = 0#5) :
    getReg q (setReg r v s) = getReg q s := by
  obtain hne | ⟨hwired, rfl⟩ := h
  · exact getReg_setReg_other q r v s hne
  · rw [getReg_hardwired s hwired, getReg_hardwired _ (by rwa [setReg_cfg])]

/-- A register write leaves every byte of memory. -/
@[simp] theorem readByte_setReg (a : Nat) (r : Reg) (v : Word) (s : State) : readByte a (setReg r v s) = readByte a s :=
  readByte_congr a (setReg_mem r v s) (setReg_cfg r v s)

/-- Settles O14: the register written, the others, and the hard-wired one (R11, R12, D1). -/
theorem registerReadAfterWrite : Obligations.RegisterReadAfterWrite := by
  intro r q v s
  refine ⟨?read, fun hwired => ⟨getReg_hardwired s hwired, setReg_hardwired v s hwired⟩, setReg_eq r v s⟩
  case read =>
    split
    · subst q
      exact getReg_setReg_self r v s
    · exact getReg_setReg_other q r v s ‹_›

/-! ## The three instructions that write a register -/

theorem exec_addi (rd rs1 : Reg) (imm : BitVec 12) (s : State) :
    exec (.addi rd rs1 imm) s = .next (setReg rd (getReg rs1 s + immI imm) s) := rfl

theorem exec_lui (rd : Reg) (imm : BitVec 20) (s : State) : exec (.lui rd imm) s = .next (setReg rd (immU imm) s) := rfl

theorem exec_jal (rd : Reg) (offset : BitVec 21) (s : State) :
    exec (.jal rd offset) s = .next (setPc (s.pc + immJ offset - 4#64) (setReg rd s.pc s)) := rfl

theorem exec_ecall (s : State) : exec .ecall s = execEcall s := rfl

/-- Settles O15: the result is one register write (R91, D1). -/
theorem addiCompletes : Obligations.AddiCompletes := by
  intro rd rs1 imm s
  exact ⟨_, exec_addi rd rs1 imm s, getReg_setReg_self rd _ s, fun r hr => getReg_setReg_other r rd _ s hr,
    fun a => readByte_setReg a rd _ s, setReg_eq rd _ s⟩

/-- Settles O16: the result is one register write (R93, D1), of a value below 2^32. -/
theorem luiCompletes : Obligations.LuiCompletes := by
  intro rd imm s
  refine ⟨_, exec_lui rd imm s, ?result, fun r hr => getReg_setReg_other r rd _ s hr, fun a => readByte_setReg a rd _ s,
    setReg_eq rd _ s⟩
  case result =>
    rw [getReg_setReg_self]
    split
    · rfl
    · exact toNat_immU imm

/-- Settles O17: the result is one register write and the new pc (R100, D1, D11). -/
theorem jalCompletes : Obligations.JalCompletes := by
  intro rd off s
  refine ⟨_, exec_jal rd off s, rfl, getReg_setReg_self rd _ s, fun r hr => getReg_setReg_other r rd _ s hr,
    fun a => readByte_setReg a rd _ s, ?frame⟩
  case frame => exact congrArg (setPc _) (setReg_eq rd s.pc s)

/-! ## Pseudo-instructions (30_encoding.md R64) -/

/-- The low part of a constant counts as negative from 2048 on. -/
theorem toNat_signExtend_liLow (imm : BitVec 32) {w : Nat} (hw : 12 < w) :
    ((liLow imm).signExtend w).toNat =
      if imm.toNat % 4096 < 2048 then imm.toNat % 4096 else imm.toNat % 4096 + (2 ^ w - 4096) := by
  have hlow : (liLow imm).toNat = imm.toNat % 4096 := by
    rw [liLow, BitVec.extractLsb'_toNat, Nat.shiftRight_zero]
  have hmsb : (liLow imm).msb = decide (2048 ≤ imm.toNat % 4096) := by
    rw [BitVec.msb_eq_decide, hlow]
  have hfits : imm.toNat % 4096 < 2 ^ w :=
    calc imm.toNat % 4096
      _ < 2 ^ 12 := Nat.mod_lt _ (by decide)
      _ ≤ 2 ^ w := Nat.pow_le_pow_right (by decide) hw.le
  rw [BitVec.toNat_signExtend, BitVec.toNat_setWidth, hlow, hmsb, Nat.mod_eq_of_lt hfits]
  by_cases hneg : imm.toNat % 4096 < 2048
  · simp [hneg, Nat.not_le.2 hneg]
  · simp [hneg, Nat.not_lt.1 hneg]

/-- Below 2^31 - 2^11 the upper part makes up for the sign of the lower one, so the sum is the constant. -/
theorem immU_liHigh_add_immI_liLow {imm : BitVec 32} (h : imm.toNat < 2 ^ 31 - 2 ^ 11) :
    immU (liHigh imm) + immI (liLow imm) = imm.setWidth 64 := by
  have hhigh : (liHigh imm).toNat = (imm - (liLow imm).signExtend 32).toNat / 4096 % 2 ^ 20 := by
    rw [liHigh, BitVec.extractLsb'_toNat, Nat.shiftRight_eq_div_pow]
  have hlow := toNat_signExtend_liLow imm (w := 64) (by decide)
  apply BitVec.eq_of_toNat_eq
  rw [BitVec.toNat_add, toNat_immU, hhigh, BitVec.toNat_sub, toNat_signExtend_liLow imm (by decide), immI, hlow,
    BitVec.toNat_setWidth_of_le (by decide)]
  split <;> omega

/-- Settles O51: the ADDI reads the LUI's result, unless register 0 is hard-wired (R64, D1). -/
theorem liPairLoadsConstant : Obligations.LiPairLoadsConstant := by
  intro rd imm s h
  refine ⟨_, _, _, _, rfl, exec_lui _ _ _, exec_addi _ _ _ _, ?result, fun r hr => ?frame⟩
  case result =>
    rw [getReg_setReg_self, setReg_cfg, getReg_setReg_self]
    split
    · rfl
    · exact immU_liHigh_add_immI_liLow h
  case frame => rw [getReg_setReg_other r rd _ _ hr, getReg_setReg_other r rd _ _ hr]

/-- Writing back the value a register holds changes nothing. -/
theorem setReg_getReg (r : Reg) (s : State) : setReg r (getReg r s) s = s := by
  unfold setReg
  split
  · rfl
  · rw [getReg, if_neg ‹_›, Vector.set_getElem_self]

/-- Settles O52: `nop` writes a register's own value back, and `j` links into the hard-wired register (R64, D1). -/
theorem nopAndJumpLeaveNoTrace : Obligations.NopAndJumpLeaveNoTrace := by
  intro off s
  refine ⟨⟨_, rfl, ?nop⟩, fun hwired => ⟨_, rfl, ?jump⟩⟩
  case nop =>
    have zero : getReg 0#5 s + immI 0#12 = getReg 0#5 s := BitVec.add_zero _
    rw [exec_addi, zero, setReg_getReg]
  case jump => rw [exec_jal, setReg_hardwired _ s hwired, immJ, setPc]

end Sys2Proof.Machine
end

section
/-! ECALL (43_system.md R110 to R118): what the write loop does on either side of the end of memory, what each call does, and that
no call looks at register 10. -/

namespace Sys2Proof.Machine

/-! ## The write loop -/

/-- The state after bytes were sent, the last one at the end of the sink. -/
def sinkExtend (bs : List Byte) (s : State) : State := { s with sink := s.sink ++ bs }

theorem sinkExtend_nil (s : State) : sinkExtend [] s = s := by rw [sinkExtend, List.append_nil]

theorem sinkExtend_sinkAppend (b : Byte) (bs : List Byte) (s : State) :
    sinkExtend bs (sinkAppend b s) = sinkExtend (b :: bs) s := by
  simp [sinkExtend, sinkAppend]

/-- A byte inside the memory is sent and the loop goes on (R112). -/
theorem writeLoop_succ_inside {n a : Nat} {s : State} (h : a < s.cfg.memSize) :
    writeLoop (n + 1) a s = writeLoop n (a + 1) (sinkAppend (memGet s.mem a) s) := by
  rw [writeLoop, readByte_ok h]

/-- A byte outside the memory ends the loop with a fault (R113). -/
theorem writeLoop_succ_outside {n a : Nat} {s : State} (h : s.cfg.memSize ≤ a) :
    writeLoop (n + 1) a s = raise (.outOfBounds (BitVec.ofNat 64 a) .one .write) s := by
  rw [writeLoop, readByte_error h]

/-- Bytes inside the memory, if there are any, are sent in order, and the loop goes on after them (R112). -/
theorem writeLoop_add {k : Nat} (n : Nat) {a : Nat} {s : State} (h : k = 0 ∨ a + k ≤ s.cfg.memSize) :
    writeLoop (k + n) a s = writeLoop n (a + k) (sinkExtend (bytesFrom s.mem a k) s) := by
  induction k generalizing a s with
  | zero => rw [Nat.zero_add, bytesFrom, List.range_zero, List.map_nil, sinkExtend_nil, Nat.add_zero]
  | succ k ih =>
    have hk : a + (k + 1) ≤ s.cfg.memSize := h.resolve_left (Nat.succ_ne_zero k)
    have hrest : a + 1 + k ≤ s.cfg.memSize := by omega
    rw [Nat.succ_add, writeLoop_succ_inside (by omega), ih (s := sinkAppend _ s) (.inr hrest), sinkAppend_mem,
      sinkExtend_sinkAppend, ← bytesFrom_succ, Nat.add_right_comm a 1 k, Nat.add_assoc a k 1]

/-- A buffer of length 0, or inside the memory, is sent whole (R112). -/
theorem writeLoop_inside {n a : Nat} {s : State} (h : n = 0 ∨ a + n ≤ s.cfg.memSize) :
    writeLoop n a s = sinkExtend (bytesFrom s.mem a n) s :=
  writeLoop_add 0 h

/-- The report of a write call whose buffer starts at `a`: the first address outside the memory (R113, D13). -/
def writeReport (memSize a : Nat) : Report := .outOfBounds (BitVec.ofNat 64 (a + (memSize - a))) .one .write

/-- A buffer that leaves the memory is sent up to the end of memory, and the next byte faults (R113, D10). -/
theorem writeLoop_outside {n a : Nat} {s : State} (hn : n ≠ 0) (h : s.cfg.memSize < a + n) :
    writeLoop n a s =
      raise (writeReport s.cfg.memSize a) (sinkExtend (bytesFrom s.mem a (s.cfg.memSize - a)) s) := by
  obtain ⟨rest, rfl⟩ : ∃ rest, n = s.cfg.memSize - a + (rest + 1) := ⟨n - (s.cfg.memSize - a) - 1, by omega⟩
  have outside : s.cfg.memSize ≤ a + (s.cfg.memSize - a) := by omega
  rw [writeLoop_add (rest + 1) (by omega)]
  exact writeLoop_succ_outside outside

/-! ## The calls -/

/-- The calls by their numbers, on the registers of the convention (R110, R111). -/
theorem execEcall_eq (s : State) :
    execEcall s =
      if getReg 17#5 s = 64#64 then .next (writeLoop (getReg 12#5 s).toNat (getReg 11#5 s).toNat s)
      else if getReg 17#5 s = 93#64 then .next (haltExit s)
      else .next s := rfl

/-- A write call whose buffer has length 0 or lies inside the memory (R112). -/
theorem execEcall_write {s : State} (hnumber : getReg 17#5 s = 64#64)
    (h : getReg 12#5 s = 0#64 ∨ (getReg 11#5 s).toNat + (getReg 12#5 s).toNat ≤ s.cfg.memSize) :
    execEcall s = .next (sinkExtend (bytesFrom s.mem (getReg 11#5 s).toNat (getReg 12#5 s).toNat) s) := by
  have inside : (getReg 12#5 s).toNat = 0 ∨ (getReg 11#5 s).toNat + (getReg 12#5 s).toNat ≤ s.cfg.memSize :=
    h.imp_left fun zero => by rw [zero]; rfl
  rw [execEcall_eq, if_pos hnumber, writeLoop_inside inside]

/-- A write call whose buffer leaves the memory (R113). -/
theorem execEcall_write_fault {s : State} (hnumber : getReg 17#5 s = 64#64) (hlength : getReg 12#5 s ≠ 0#64)
    (h : s.cfg.memSize < (getReg 11#5 s).toNat + (getReg 12#5 s).toNat) :
    execEcall s = .next (raise (writeReport s.cfg.memSize (getReg 11#5 s).toNat)
      (sinkExtend (bytesFrom s.mem (getReg 11#5 s).toNat (s.cfg.memSize - (getReg 11#5 s).toNat)) s)) := by
  have notZero : (getReg 12#5 s).toNat ≠ 0 := fun zero => hlength (BitVec.eq_of_toNat_eq zero)
  rw [execEcall_eq, if_pos hnumber, writeLoop_outside notZero h]

/-- A call that is neither a write nor an exit does nothing (R115, D12). -/
theorem execEcall_other {s : State} (notWrite : getReg 17#5 s ≠ 64#64) (notExit : getReg 17#5 s ≠ 93#64) :
    execEcall s = .next s := by
  rw [execEcall_eq, if_neg notWrite, if_neg notExit]

/-- Everything an ECALL can do, by its number and the bounds of its buffer (R110 to R115). -/
theorem execEcall_cases (s : State) :
    (getReg 17#5 s = 64#64 ∧ (getReg 12#5 s = 0#64 ∨ (getReg 11#5 s).toNat + (getReg 12#5 s).toNat ≤ s.cfg.memSize) ∧
      execEcall s = .next (sinkExtend (bytesFrom s.mem (getReg 11#5 s).toNat (getReg 12#5 s).toNat) s)) ∨
    (getReg 17#5 s = 64#64 ∧ getReg 12#5 s ≠ 0#64 ∧ s.cfg.memSize < (getReg 11#5 s).toNat + (getReg 12#5 s).toNat ∧
      execEcall s = .next (raise (writeReport s.cfg.memSize (getReg 11#5 s).toNat)
        (sinkExtend (bytesFrom s.mem (getReg 11#5 s).toNat (s.cfg.memSize - (getReg 11#5 s).toNat)) s))) ∨
    (getReg 17#5 s = 93#64 ∧ execEcall s = .next (haltExit s)) ∨
    (getReg 17#5 s ≠ 64#64 ∧ getReg 17#5 s ≠ 93#64 ∧ execEcall s = .next s) := by
  by_cases hwrite : getReg 17#5 s = 64#64
  · by_cases hin : getReg 12#5 s = 0#64 ∨ (getReg 11#5 s).toNat + (getReg 12#5 s).toNat ≤ s.cfg.memSize
    · exact .inl ⟨hwrite, hin, execEcall_write hwrite hin⟩
    · obtain ⟨hlength, hout⟩ := not_or.1 hin
      have hout := Nat.lt_of_not_le hout
      exact .inr (.inl ⟨hwrite, hlength, hout, execEcall_write_fault hwrite hlength hout⟩)
  · by_cases hexit : getReg 17#5 s = 93#64
    · exact .inr (.inr (.inl ⟨hexit, execEcall_exit hexit⟩))
    · exact .inr (.inr (.inr ⟨hwrite, hexit, execEcall_other hwrite hexit⟩))

/-- Settles O18: each of the four things an ECALL can do changes the sink and the control state alone (D12, D17). -/
theorem ecallCompletes : Obligations.EcallCompletes := by
  intro s
  obtain ⟨hnumber, hin, e⟩ | ⟨hnumber, hlength, hout, e⟩ | ⟨hnumber, e⟩ | ⟨notWrite, notExit, e⟩ := execEcall_cases s
  case inl =>
    exact ⟨_, _, e, rfl, fun _ => rfl, fun _ => rfl, fun _ _ => ⟨rfl, rfl, rfl, rfl⟩, fun notWrite => absurd hnumber notWrite,
      fun hexit => by simp [hnumber] at hexit, fun notWrite => absurd hnumber notWrite⟩
  case inr.inl =>
    refine ⟨_, _, e, rfl, fun _ => rfl, fun _ => rfl, fun _ hin => ?_, fun notWrite => absurd hnumber notWrite,
      fun hexit => by simp [hnumber] at hexit, fun notWrite => absurd hnumber notWrite⟩
    exact absurd hin (not_or.2 ⟨hlength, Nat.not_le.2 hout⟩)
  case inr.inr.inl =>
    exact ⟨_, [], e, by rw [List.append_nil]; rfl, fun _ => rfl, fun _ => rfl, fun hwrite => by simp [hnumber] at hwrite,
      fun _ => rfl, fun _ => ⟨rfl, rfl, rfl⟩, fun _ notExit => absurd hnumber notExit⟩
  case inr.inr.inr =>
    exact ⟨_, [], e, by rw [List.append_nil], fun _ => rfl, fun _ => rfl, fun hwrite => absurd hwrite notWrite,
      fun _ => rfl, fun hexit => absurd hexit notExit, fun _ _ => rfl⟩

/-! ## No call looks at a register outside the convention (R112) -/

theorem sinkAppend_setReg (b : Byte) (r : Reg) (v : Word) (s : State) :
    sinkAppend b (setReg r v s) = setReg r v (sinkAppend b s) :=
  apply_ite (sinkAppend b) _ _ _

theorem raise_setReg (e : Report) (r : Reg) (v : Word) (s : State) : raise e (setReg r v s) = setReg r v (raise e s) :=
  apply_ite (raise e) _ _ _

theorem haltExit_setReg (r : Reg) (v : Word) (s : State) : haltExit (setReg r v s) = setReg r v (haltExit s) :=
  apply_ite haltExit _ _ _

/-- The write loop neither reads nor writes a register. -/
theorem writeLoop_setReg (n a : Nat) (r : Reg) (v : Word) (s : State) :
    writeLoop n a (setReg r v s) = setReg r v (writeLoop n a s) := by
  induction n generalizing a s with
  | zero => rfl
  | succ n ih =>
    rw [writeLoop, writeLoop, readByte_setReg]
    cases readByte a s with
    | ok b => exact (congrArg _ (sinkAppend_setReg b r v s)).trans (ih (a + 1) (sinkAppend b s))
    | error e => exact raise_setReg _ r v s

/-- Settles O26: an ECALL reads the registers 11, 12 and 17 alone and writes none (R112). -/
theorem writeIgnoresFileDescriptor : Obligations.WriteIgnoresFileDescriptor := by
  intro v s
  simp only [exec_ecall, execEcall_eq, getReg_setReg_other 17#5 10#5 v s (by decide),
    getReg_setReg_other 12#5 10#5 v s (by decide), getReg_setReg_other 11#5 10#5 v s (by decide), writeLoop_setReg, haltExit_setReg]
  split
  · exact ⟨_, rfl, rfl⟩
  · split
    · exact ⟨_, rfl, rfl⟩
    · exact ⟨_, rfl, rfl⟩

end Sys2Proof.Machine
end

section
/-! One step of the machine, by what it fetches (40_execution_loop.md R70 to R77, R82): each of the five things a step can do as an
equation of `step`, and the statements about a step that runs a given word. -/

namespace Sys2Proof.Machine

/-! ## The step as an equation -/

/-- A step that fetches an instruction runs it on the advanced state and counts (R72 to R74). -/
theorem step_of_fetch_instr {s t : State} {w : InstrWord} {i : Instr} (hf : Fetches w s) (hd : decode w = .instr i)
    (he : exec i (advancePc s) = .next t) : step s = .next (countStep t) := by
  obtain ⟨⟨hm, hb⟩, hword⟩ := hf
  rw [step_of_fetch hm hb hword, runWord_instr hd he]

/-- A step that fetches a word that is no instruction dispatches it on the advanced state and counts (R72 to R74). -/
theorem step_of_fetch_unhandled {s : State} {w : InstrWord} {why : Unhandled} (hf : Fetches w s)
    (hd : decode w = .unhandled why) : step s = .next (countStep (dispatchUnhandled why w s.pc (advancePc s))) := by
  obtain ⟨⟨hm, hb⟩, hword⟩ := hf
  rw [step_of_fetch hm hb hword, runWord, hd]

/-- A step whose fetch falls outside the memory halts the core at the same pc and counts (R71, D9, D20). -/
theorem step_of_fetch_outside {s : State} (h : Enabled s) (hout : s.cfg.memSize < s.pc.toNat + 4) :
    step s = .next (countStep (raiseFetch s)) := by
  obtain ⟨hm, hb⟩ := h
  obtain ⟨hin, _⟩ | ⟨_, e⟩ := fetch_cases s
  · omega
  · rw [step, loopMove, hm]
    simp only [if_pos hb, iterate, e]

/-- A step that fetches an ADDI (R91). -/
theorem step_of_fetch_addi {s : State} {w : InstrWord} {rd rs1 : Reg} {imm : BitVec 12} (hf : Fetches w s)
    (hd : decode w = .instr (.addi rd rs1 imm)) :
    step s = .next (countStep (setReg rd (getReg rs1 s + immI imm) (advancePc s))) :=
  step_of_fetch_instr hf hd (exec_addi rd rs1 imm (advancePc s))

/-- A step that fetches a LUI (R93). -/
theorem step_of_fetch_lui {s : State} {w : InstrWord} {rd : Reg} {imm : BitVec 20} (hf : Fetches w s)
    (hd : decode w = .instr (.lui rd imm)) : step s = .next (countStep (setReg rd (immU imm) (advancePc s))) :=
  step_of_fetch_instr hf hd (exec_lui rd imm (advancePc s))

/-- The target of a JAL, from the address of the JAL itself (R100). -/
theorem jal_target (p imm : Word) : p + 4#64 + imm - 4#64 = p + imm := by
  rw [add_right_comm, BitVec.add_sub_cancel]

/-- A step that fetches a JAL (R100). -/
theorem step_of_fetch_jal {s : State} {w : InstrWord} {rd : Reg} {off : BitVec 21} (hf : Fetches w s)
    (hd : decode w = .instr (.jal rd off)) :
    step s = .next (countStep (setPc (s.pc + immJ off) (setReg rd (s.pc + 4#64) (advancePc s)))) := by
  rw [step_of_fetch_instr hf hd (exec_jal rd off (advancePc s)), advancePc_pc, jal_target]

/-! ## A step on the word of an instruction -/

/-- What a counted register write on the advanced state changes. -/
theorem countStep_setReg_advancePc (rd : Reg) (v : Word) (s : State) :
    countStep (setReg rd v (advancePc s)) =
      { s with regs := (setReg rd v (advancePc s)).regs, pc := s.pc + 4#64, steps := s.steps + 1 } :=
  congrArg countStep (setReg_eq rd v (advancePc s))

/-- Settles O19: the word's fields, and one register write on the advanced state (R91, D1). -/
theorem stepRunsAddiWord : Obligations.StepRunsAddiWord := by
  intro w s hf hw
  exact ⟨_, step_of_fetch_addi hf (decode_of_addi_mask hw), getReg_setReg_self _ _ (advancePc s),
    fun r hr => getReg_setReg_other r _ _ (advancePc s) hr, countStep_setReg_advancePc _ _ s⟩

/-- Settles O20: the word's fields, and one register write on the advanced state (R93, D1). -/
theorem stepRunsLuiWord : Obligations.StepRunsLuiWord := by
  intro w s hf hw
  rw [← immU_imm20Of]
  exact ⟨_, step_of_fetch_lui hf (decode_of_lui_mask hw), getReg_setReg_self _ _ (advancePc s),
    fun r hr => getReg_setReg_other r _ _ (advancePc s) hr, countStep_setReg_advancePc _ _ s⟩

/-- What a counted link and jump on the advanced state changes. -/
theorem countStep_setPc_setReg_advancePc (target : Word) (rd : Reg) (v : Word) (s : State) :
    countStep (setPc target (setReg rd v (advancePc s))) =
      { s with regs := (setReg rd v (advancePc s)).regs, pc := target, steps := s.steps + 1 } :=
  congrArg (fun u => countStep (setPc target u)) (setReg_eq rd v (advancePc s))

/-- Settles O21: the link is the advanced pc, and the target is taken from the JAL's own address (R100, D1, D11). -/
theorem stepRunsJalWord : Obligations.StepRunsJalWord := by
  intro w rd off s hf hd
  exact ⟨_, step_of_fetch_jal hf hd, getReg_setReg_self rd _ (advancePc s),
    fun r hr => getReg_setReg_other r rd _ (advancePc s) hr, countStep_setPc_setReg_advancePc _ rd _ s⟩

/-- Settles O23: a call with another number leaves the advanced state (R115, D12, D20). -/
theorem stepOtherCallIsNop : Obligations.StepOtherCallIsNop := by
  intro s hf notWrite notExit
  exact step_of_fetch_ecall hf (execEcall_other (s := advancePc s) notWrite notExit)

/-- Settles O24: the write loop inside the memory, run on the advanced state (R112, D8). -/
theorem stepWriteAppendsBuffer : Obligations.StepWriteAppendsBuffer := by
  intro s hf hnumber hin
  exact step_of_fetch_ecall hf (execEcall_write (s := advancePc s) hnumber hin)

/-- Settles O25: the write loop past the end of memory, run on the advanced state (R113, D10, D13). -/
theorem stepWriteOutOfBounds : Obligations.StepWriteOutOfBounds := by
  intro s hf hnumber hlength hout
  exact step_of_fetch_ecall hf (execEcall_write_fault (s := advancePc s) hnumber hlength hout)

/-- Settles O27: both words decode to ECALL, which has no operand in its word (D3). -/
theorem everyOpcode73WordIsEcall : Obligations.EveryOpcode73WordIsEcall := by
  intro w s hop
  rw [runWord, runWord, decode_of_ecall_opcode hop, decode_ecall_word]

/-- A byte that was read stands inside the memory (R34). -/
theorem memGet_of_readByte {a : Nat} {b : Byte} {s : State} (h : readByte a s = .ok b) : a < s.cfg.memSize ∧ memGet s.mem a = b := by
  obtain ⟨hin, e⟩ | ⟨_, e⟩ := readByte_cases a s <;> rw [e] at h <;> cases h
  exact ⟨hin, rfl⟩

/-- Settles O28: the four bytes are the fetched word, and the step runs what it decodes to (R71 to R74). -/
theorem stepRunsDecodedInstruction : Obligations.StepRunsDecodedInstruction := by
  intro s b0 b1 b2 b3 i henabled h0 h1 h2 h3 hd
  obtain ⟨-, e0⟩ := memGet_of_readByte h0
  obtain ⟨-, e1⟩ := memGet_of_readByte h1
  obtain ⟨-, e2⟩ := memGet_of_readByte h2
  obtain ⟨hin, e3⟩ := memGet_of_readByte h3
  have hf : Fetches (wordOfBytes b0 b1 b2 b3) s := by
    rw [← e0, ← e1, ← e2, ← e3]
    exact ⟨henabled, readWord32_ok hin⟩
  obtain ⟨t, he⟩ := exec_next i (advancePc s)
  refine ⟨decode_wellFormed hd, ?_⟩
  rw [step_of_fetch_instr hf hd he, show exec i { s with pc := s.pc + 4#64 } = .next t from he]
  rfl

/-! ## A step that fetches no instruction -/

/-- Settles O29: the fetch fails and the pc has not been advanced (R71, D9, D13, D20). -/
theorem stepFetchOutOfBounds : Obligations.StepFetchOutOfBounds :=
  fun _ henabled hout => step_of_fetch_outside henabled hout

/-- A word is unhandled for its function-select field exactly when its opcode is ADDI's (R59, R60). -/
theorem opImmFunct3_iff_opcode {w : InstrWord} {why : Unhandled} (h : decode w = .unhandled why) :
    (∃ f, why = .opImmFunct3 f) ↔ opcodeOf w = 0x13#7 := by
  obtain ⟨-, -, e⟩ | ⟨hop, -, e⟩ | ⟨-, e⟩ | ⟨-, e⟩ | ⟨-, e⟩ | ⟨hop, -, -, -, e⟩ := decode_cases w <;>
    rw [e] at h <;> cases h
  · exact ⟨fun _ => hop, fun _ => ⟨_, rfl⟩⟩
  · exact ⟨nofun, fun hop' => absurd hop' hop⟩

/-- A word that matches no row of the table is unhandled (R59, D2, D3). -/
theorem decode_unhandled_of_no_row {w : InstrWord} (h : ∀ row ∈ opcodeTable, w &&& row.mask ≠ row.pattern) :
    ∃ why, decode w = .unhandled why := by
  cases hd : decode w with
  | instr i =>
    obtain ⟨rowOfInstr, -⟩ := decodeFollowsOpcodeTable w
    obtain ⟨row, hrow, -, hw⟩ := rowOfInstr i hd
    exact absurd hw (h row hrow)
  | unhandled why => exact ⟨why, rfl⟩

/-- Settles O30: the dispatch of an unhandled word raises it, but for the rejected choice of the switch (R73, D2, D13). -/
theorem stepUnhandledWord : Obligations.StepUnhandledWord := by
  intro w s hf hrow
  obtain ⟨why, hd⟩ := decode_unhandled_of_no_row hrow
  have isOpImm := opImmFunct3_iff_opcode hd
  rw [step_of_fetch_unhandled hf hd]
  obtain ⟨hnop, hwhy, e⟩ | ⟨hraise, e⟩ := dispatchUnhandled_cases why w s.pc (advancePc s) <;> rw [e]
  case inl =>
    rw [if_pos ⟨hnop, isOpImm.1 hwhy⟩]
    rfl
  case inr =>
    rw [if_neg]
    · rfl
    · rintro ⟨hnop, hop⟩
      obtain ⟨f, hf3⟩ := isOpImm.2 hop
      obtain hfault | notOpImm := hraise
      · exact nomatch hnop.symm.trans hfault
      · exact notOpImm f hf3

/-- Settles O32: a Halted core has no enabled step, and Run looks at the mode first (R82, D14). -/
theorem haltedTakesNoStep : Obligations.HaltedTakesNoStep := by
  intro s h
  refine ⟨step_of_halted h, fun maxSteps => ?_⟩
  rw [run, h]

end Sys2Proof.Machine
end

section
/-! What no step does, and where the pc goes (40_execution_loop.md R76): the step inverted once, and what each thing it can do
changes. -/

namespace Sys2Proof.Machine

/-! ## The step inverted -/

/-- What a step from `s` can leave (R70 to R77). -/
inductive StepResult (s : State) : State → Prop
  | budgetSpent (spent : s.cfg.maxSteps ≤ s.steps) : StepResult s (haltBudget s)
  | fetchFailed (left : s.steps < s.cfg.maxSteps) (outside : s.cfg.memSize < s.pc.toNat + 4) :
      StepResult s (countStep (raiseFetch s))
  | unhandled {w : InstrWord} {why : Unhandled} (fetched : Fetches w s) (decoded : decode w = .unhandled why) :
      StepResult s (countStep (dispatchUnhandled why w s.pc (advancePc s)))
  | ran {w : InstrWord} {i : Instr} {u : State} (fetched : Fetches w s) (decoded : decode w = .instr i)
      (executed : exec i (advancePc s) = .next u) : StepResult s (countStep u)

/-- A running core steps to one of these results. -/
theorem step_of_running {s : State} (hm : s.mode = .running) : ∃ t, step s = .next t ∧ StepResult s t := by
  obtain ⟨hhalted, -⟩ | ⟨-, spent, e⟩ | ⟨-, left, outside, e⟩ | ⟨-, left, -, w, hf, ⟨why, hd, e⟩ | ⟨i, u, hd, he, e⟩⟩ :=
    step_cases s
  · exact nomatch hm.symm.trans hhalted
  · exact ⟨_, e, .budgetSpent spent⟩
  · exact ⟨_, e, .fetchFailed left outside⟩
  · exact ⟨_, e, .unhandled ⟨⟨hm, left⟩, hf⟩ hd⟩
  · exact ⟨_, e, .ran ⟨⟨hm, left⟩, hf⟩ hd he⟩

/-- Only a running core steps (R82). -/
theorem running_of_step {s t : State} (h : step s = .next t) : s.mode = .running := by
  cases hm : s.mode with
  | running => rfl
  | halted => exact nomatch (step_of_halted hm).symm.trans h

/-- A step leaves one of these results. -/
theorem stepResult_of_step {s t : State} (h : step s = .next t) : StepResult s t := by
  obtain ⟨u, e, result⟩ := step_of_running (running_of_step h)
  rw [h] at e
  cases e
  exact result

/-- What an instruction leaves on the advanced state `s` (R73): ADDI and LUI write a register, JAL jumps, ECALL makes its call. -/
inductive ExecResult (s : State) : Instr → State → Prop
  | writesRegister {i : Instr} (notJal : ∀ rd off, i ≠ .jal rd off) (rd : Reg) (v : Word) : ExecResult s i (setReg rd v s)
  | jumps (rd : Reg) (off : BitVec 21) :
      ExecResult s (.jal rd off) (setPc (s.pc + immJ off - 4#64) (setReg rd s.pc s))
  | calls {t : State} (called : execEcall s = .next t) : ExecResult s .ecall t

/-- An instruction leaves one of these results. -/
theorem execResult_of_exec {i : Instr} {s t : State} (h : exec i s = .next t) : ExecResult s i t := by
  cases i with
  | addi rd rs1 imm =>
    rw [exec_addi] at h
    cases h
    exact .writesRegister (by simp) rd _
  | lui rd imm =>
    rw [exec_lui] at h
    cases h
    exact .writesRegister (by simp) rd _
  | jal rd off =>
    rw [exec_jal] at h
    cases h
    exact .jumps rd off
  | ecall => exact .calls h

/-! ## The frame of a step -/

/-- What no run changes between `s` and `t`: memory and parameters stay, and the sink only grows. -/
structure RunFrame (s t : State) : Prop where
  mem : t.mem = s.mem
  cfg : t.cfg = s.cfg
  sinkGrows : ∃ extra, t.sink = s.sink ++ extra

/-- What no single step changes: besides, at most one register changes (R76). -/
structure StepFrame (s t : State) : Prop extends RunFrame s t where
  oneRegister : ∃ rd, ∀ r, r ≠ rd → getReg r t = getReg r s

theorem RunFrame.refl (s : State) : RunFrame s s := ⟨rfl, rfl, ⟨[], by rw [List.append_nil]⟩⟩

theorem RunFrame.trans {s t u : State} (h : RunFrame s t) (h' : RunFrame t u) : RunFrame s u := by
  obtain ⟨x, hx⟩ := h.sinkGrows
  obtain ⟨y, hy⟩ := h'.sinkGrows
  exact ⟨h'.mem.trans h.mem, h'.cfg.trans h.cfg, ⟨x ++ y, by rw [hy, hx, List.append_assoc]⟩⟩

/-- A change of pc, mode, stop, report and steps alone keeps the frame. -/
theorem StepFrame.of_unchanged {s t : State} (mem : t.mem = s.mem) (cfg : t.cfg = s.cfg) (sink : t.sink = s.sink)
    (regs : t.regs = s.regs) : StepFrame s t :=
  ⟨⟨mem, cfg, ⟨[], by rw [sink, List.append_nil]⟩⟩, ⟨0#5, fun r _ => getReg_congr r s t regs (by rw [cfg])⟩⟩

/-- A register write keeps the frame. -/
theorem frame_setReg (rd : Reg) (v : Word) (s : State) : StepFrame s (setReg rd v s) :=
  ⟨⟨setReg_mem rd v s, setReg_cfg rd v s, ⟨[], by rw [setReg_sink, List.append_nil]⟩⟩,
    ⟨rd, fun r hr => getReg_setReg_other r rd v s hr⟩⟩

/-- An instruction keeps the frame and the step counter. -/
theorem exec_frame {i : Instr} {s t : State} (h : exec i s = .next t) : StepFrame s t ∧ t.steps = s.steps := by
  cases execResult_of_exec h with
  | writesRegister _ rd v => exact ⟨frame_setReg rd v s, setReg_steps rd v s⟩
  | jumps rd off =>
    obtain ⟨⟨mem, cfg, sinkGrows⟩, oneRegister⟩ := frame_setReg rd s.pc s
    exact ⟨⟨⟨mem, cfg, sinkGrows⟩, oneRegister⟩, setReg_steps rd s.pc s⟩
  | calls called =>
    obtain ⟨extra, _, _, _, e⟩ := execEcall_frame s
    rw [e] at called
    cases called
    exact ⟨⟨⟨rfl, rfl, ⟨extra, rfl⟩⟩, ⟨0#5, fun _ _ => rfl⟩⟩, rfl⟩

/-- The dispatch of an unhandled word writes the control state alone (R73). -/
theorem dispatchUnhandled_frame (why : Unhandled) (w : InstrWord) (p : Word) (s : State) :
    dispatchUnhandled why w p s = { s with
      mode := (dispatchUnhandled why w p s).mode
      stop := (dispatchUnhandled why w p s).stop
      report := (dispatchUnhandled why w p s).report } := by
  obtain ⟨-, -, e⟩ | ⟨-, e⟩ := dispatchUnhandled_cases why w p s <;> rw [e]
  rfl

/-- A step keeps the frame (R76). -/
theorem step_frame {s t : State} (h : step s = .next t) : StepFrame s t := by
  cases stepResult_of_step h with
  | budgetSpent _ => exact .of_unchanged rfl rfl rfl rfl
  | fetchFailed _ _ => exact .of_unchanged rfl rfl rfl rfl
  | unhandled _ _ =>
    rw [dispatchUnhandled_frame]
    exact .of_unchanged rfl rfl rfl rfl
  | ran _ _ he =>
    obtain ⟨⟨⟨mem, cfg, sinkGrows⟩, oneRegister⟩, -⟩ := exec_frame he
    exact ⟨⟨mem, cfg, sinkGrows⟩, oneRegister⟩

/-- A step is counted exactly when budget was left (R74, R77, D20). -/
theorem step_steps {s t : State} (h : step s = .next t) :
    t.steps = if s.steps < s.cfg.maxSteps then s.steps + 1 else s.steps := by
  cases stepResult_of_step h with
  | budgetSpent spent => exact (if_neg (Nat.not_lt.2 spent)).symm
  | fetchFailed left _ => exact (if_pos left).symm
  | unhandled fetched _ =>
    obtain ⟨⟨-, left⟩, -⟩ := fetched
    rw [if_pos left, dispatchUnhandled_frame]
    rfl
  | ran fetched _ he =>
    obtain ⟨⟨-, left⟩, -⟩ := fetched
    obtain ⟨-, steps⟩ := exec_frame he
    rw [if_pos left, countStep_steps, steps, advancePc_steps]

/-- Settles O34: the frame of a step and its counter (R76, D20). -/
theorem stepKeepsMemoryAndAllButOneRegister : Obligations.StepKeepsMemoryAndAllButOneRegister := by
  intro s t h
  obtain ⟨⟨mem, cfg, sinkGrows⟩, oneRegister⟩ := step_frame h
  exact ⟨mem, fun a => readByte_congr a mem cfg, cfg, sinkGrows, oneRegister, step_steps h⟩

/-- Settles O33: a step from a running core halts it for want of budget or is counted (R70, R77). -/
theorem runningCoreAlwaysSteps : Obligations.RunningCoreAlwaysSteps := by
  intro s hm
  obtain ⟨t, h, -⟩ := step_of_running hm
  refine ⟨t, h, ?_⟩
  by_cases left : s.steps < s.cfg.maxSteps
  · exact .inr ((step_steps h).trans (if_pos left))
  · rw [step_of_budget_spent hm (Nat.not_lt.1 left)] at h
    cases h
    exact .inl rfl

/-! ## What each fetched instruction may change -/

/-- Settles O53: each thing a step can do, as an equation of its result (R76, D1, D9, D11, D12, D20). -/
theorem stepChangesOnlyWhatItsInstructionNames : Obligations.StepChangesOnlyWhatItsInstructionNames := by
  intro s t h
  have hm := running_of_step h
  have result {u : State} (e : step s = .next u) : t = u := Host.Outcome.next.inj (h.symm.trans e)
  have keeps {rd : Reg} (v : Word) (r : Reg) (hr : r ≠ rd ∨ s.cfg.x0Hardwired = true ∧ r = 0#5) :
      getReg r (setReg rd v (advancePc s)) = getReg r s := getReg_setReg_keeps v hr
  refine ⟨fun spent => result (step_of_budget_spent hm spent), fun left out => ?fetchFailed, fun w left fetched => ?fetched⟩
  case fetchFailed =>
    obtain rfl := result (step_of_fetch_outside ⟨hm, left⟩ out)
    rfl
  case fetched =>
    have hf : Fetches w s := ⟨⟨hm, left⟩, fetched⟩
    refine ⟨fun rd rs1 imm hd => ?addi, fun rd imm hd => ?lui, fun rd off hd => ?jal, fun hd => ?ecall, fun why hd => ?unhandled⟩
    case addi =>
      obtain rfl := result (step_of_fetch_addi hf hd)
      exact ⟨countStep_setReg_advancePc rd _ s, keeps _⟩
    case lui =>
      obtain rfl := result (step_of_fetch_lui hf hd)
      exact ⟨countStep_setReg_advancePc rd _ s, keeps _⟩
    case jal =>
      obtain rfl := result (step_of_fetch_jal hf hd)
      exact ⟨countStep_setPc_setReg_advancePc _ rd _ s, keeps _⟩
    case ecall =>
      refine ⟨fun hwrite => ?write, fun hexit => ?exit, fun notWrite notExit => ?other⟩
      case write =>
        obtain ⟨-, -, e⟩ | ⟨-, -, -, e⟩ | ⟨hexit, -⟩ | ⟨notWrite, -, -⟩ := execEcall_cases (advancePc s)
        · exact .inl ⟨_, result (step_of_fetch_instr hf hd e)⟩
        · obtain rfl := result (step_of_fetch_instr hf hd e)
          exact .inr ⟨_, rfl⟩
        · exact nomatch hwrite.symm.trans hexit
        · exact absurd hwrite notWrite
      case exit => exact result (step_of_fetch_instr hf hd (execEcall_exit (s := advancePc s) hexit))
      case other => exact result (step_of_fetch_instr hf hd (execEcall_other (s := advancePc s) notWrite notExit))
    case unhandled =>
      obtain rfl := result (step_of_fetch_unhandled hf hd)
      exact congrArg countStep (dispatchUnhandled_frame why w s.pc (advancePc s))

/-! ## Where the pc goes -/

/-- An instruction other than JAL leaves the pc where the advance put it (R72). -/
theorem exec_pc_of_not_jal {i : Instr} {s t : State} (h : exec i s = .next t) (notJal : ∀ rd off, i ≠ .jal rd off) :
    t.pc = s.pc := by
  cases execResult_of_exec h with
  | writesRegister _ rd v => exact setReg_pc rd v s
  | jumps rd off => exact absurd rfl (notJal rd off)
  | calls called =>
    obtain ⟨_, _, _, _, e⟩ := execEcall_frame s
    rw [e] at called
    cases called
    rfl

/-- Settles O35: the pc by what the step did (R72, R100, D9, D11). -/
theorem stepMovesPcByFourOrJal : Obligations.StepMovesPcByFourOrJal := by
  intro s t h
  cases stepResult_of_step h with
  | budgetSpent spent => exact .inl ⟨rfl, rfl, .inl spent⟩
  | fetchFailed _ out => exact .inl ⟨rfl, rfl, .inr out⟩
  | @unhandled w why fetched hd =>
    obtain ⟨⟨-, left⟩, hf⟩ := fetched
    refine .inr ⟨left, w, hf, .inr ⟨fun rd off => by rw [hd]; nofun, ?_⟩⟩
    rw [dispatchUnhandled_frame]
    rfl
  | @ran w i u fetched hd he =>
    obtain ⟨⟨hm, left⟩, hf⟩ := fetched
    refine .inr ⟨left, w, hf, ?_⟩
    by_cases hjal : ∃ rd off, i = .jal rd off
    · obtain ⟨rd, off, rfl⟩ := hjal
      have jumped := h.symm.trans (step_of_fetch_jal ⟨⟨hm, left⟩, hf⟩ hd)
      exact .inl ⟨rd, off, hd, congrArg State.pc (Host.Outcome.next.inj jumped)⟩
    · have notJal (rd off) : i ≠ .jal rd off := fun e => hjal ⟨rd, off, e⟩
      exact .inr ⟨fun rd off e => notJal rd off (Decoded.instr.inj (hd.symm.trans e)), exec_pc_of_not_jal he notJal⟩

/-- The J-immediate of an even offset is even (R58). -/
theorem toNat_immJ_even {off : BitVec 21} (h : off.getLsbD 0 = false) : (immJ off).toNat % 2 = 0 := by
  have bit : (immJ off).getLsbD 0 = false := by rw [getLsbD_immJ off (by decide), if_pos (by decide), h]
  simpa [BitVec.getLsbD, Nat.testBit_zero] using bit

/-- Settles O36: every distance the pc moves by is even, and so is 2^64 (R58, D11). -/
theorem stepKeepsPcParity : Obligations.StepKeepsPcParity := by
  intro s t h
  have parity {d : Word} (hd : d.toNat % 2 = 0) : (s.pc + d).toNat % 2 = s.pc.toNat % 2 := by
    rw [BitVec.toNat_add]
    omega
  obtain ⟨e, -⟩ | ⟨-, w, -, ⟨rd, off, hd, e⟩ | ⟨-, e⟩⟩ := stepMovesPcByFourOrJal s t h <;> rw [e]
  · exact parity (toNat_immJ_even (beq_iff_eq.1 (decode_wellFormed hd)))
  · exact parity rfl

end Sys2Proof.Machine
end

section
/-! The machine's invariant: one rule per operation of the state, from which every step keeps it; what a faulting step leaves; and
the machine after construction and reset (10_state.md R25; 60_exceptions.md R136). -/

namespace Sys2Proof.Machine

/-! ## The invariant, operation by operation -/

/-- A running core that meets the invariant has neither a cause nor a report (R17). -/
theorem Inv.running {s : State} (h : Inv s) (hm : s.mode = .running) : s.stop = none ∧ s.report = none := by
  have stop : s.stop = none := by
    by_contra hstop
    exact nomatch hm.symm.trans (h.haltedIffStopped.2 hstop)
  have report : s.report = none := by
    by_contra hreport
    exact nomatch stop.symm.trans (h.reportIffFault.1 hreport)
  exact ⟨stop, report⟩

/-- The pc plays no part in the invariant. -/
theorem Inv.setPc {s : State} (h : Inv s) (target : Word) : Inv (setPc target s) :=
  ⟨h.memWf, h.memWithin, h.sizeBound, h.haltedIffStopped, h.reportIffFault, h.stepsBound, h.budgetSpent, h.zeroCell⟩

/-- Nor does the sink. -/
theorem Inv.sinkExtend {s : State} (h : Inv s) (bs : List Byte) : Inv (sinkExtend bs s) :=
  ⟨h.memWf, h.memWithin, h.sizeBound, h.haltedIffStopped, h.reportIffFault, h.stepsBound, h.budgetSpent, h.zeroCell⟩

/-- A register write leaves the cell of a hard-wired register 0 at zero (R12, D1). -/
theorem Inv.setReg {s : State} (h : Inv s) (r : Reg) (v : Word) : Inv (setReg r v s) := by
  by_cases discarded : (s.cfg.x0Hardwired && r == 0#5) = true
  · rwa [Machine.setReg, if_pos discarded]
  · rw [Machine.setReg, if_neg discarded]
    refine ⟨h.memWf, h.memWithin, h.sizeBound, h.haltedIffStopped, h.reportIffFault, h.stepsBound, h.budgetSpent,
      fun hwired => ?_⟩
    have hwired : s.cfg.x0Hardwired = true := hwired
    have notZero : r.toNat ≠ 0 := fun e => discarded (by simp [hwired, BitVec.eq_of_toNat_eq (y := 0#5) e])
    simpa [notZero] using h.zeroCell hwired

/-- A fault sets the mode, the cause and the report together (R136). -/
theorem Inv.raise {s : State} (h : Inv s) (r : Report) : Inv (raise r s) :=
  ⟨h.memWf, h.memWithin, h.sizeBound, by simp, by simp, h.stepsBound, nofun, h.zeroCell⟩

/-- An exit of a running core leaves no report (R80). -/
theorem Inv.haltExit {s : State} (h : Inv s) (hm : s.mode = .running) : Inv (haltExit s) := by
  obtain ⟨-, report⟩ := h.running hm
  exact ⟨h.memWf, h.memWithin, h.sizeBound, by simp, by simp [report], h.stepsBound, nofun, h.zeroCell⟩

/-- The end of a spent run leaves no report (R81). -/
theorem Inv.haltBudget {s : State} (h : Inv s) (hm : s.mode = .running) (spent : s.cfg.maxSteps ≤ s.steps) :
    Inv (haltBudget s) := by
  obtain ⟨-, report⟩ := h.running hm
  exact ⟨h.memWf, h.memWithin, h.sizeBound, by simp, by simp [report], h.stepsBound, fun _ => Nat.le_antisymm h.stepsBound spent,
    h.zeroCell⟩

/-- A step is counted only with budget left (R70, R74). -/
theorem Inv.countStep {s : State} (h : Inv s) (left : s.steps < s.cfg.maxSteps) : Inv (countStep s) :=
  ⟨h.memWf, h.memWithin, h.sizeBound, h.haltedIffStopped, h.reportIffFault, left,
    fun cut => absurd (h.budgetSpent cut) left.ne, h.zeroCell⟩

/-- The dispatch of an unhandled word does nothing or faults (R73). -/
theorem Inv.dispatchUnhandled {s : State} (h : Inv s) (why : Unhandled) (w : InstrWord) (p : Word) :
    Inv (dispatchUnhandled why w p s) := by
  obtain ⟨-, -, e⟩ | ⟨-, e⟩ := dispatchUnhandled_cases why w p s <;> rw [e]
  · exact h
  · exact h.raise _

/-- Every instruction keeps the invariant of a running core. -/
theorem Inv.exec {i : Instr} {s t : State} (h : Inv s) (hm : s.mode = .running) (he : exec i s = .next t) : Inv t := by
  cases execResult_of_exec he with
  | writesRegister _ rd v => exact h.setReg rd v
  | jumps rd off => exact (h.setReg rd s.pc).setPc _
  | calls called =>
    obtain ⟨-, -, e⟩ | ⟨-, -, -, e⟩ | ⟨-, e⟩ | ⟨-, -, e⟩ := execEcall_cases s <;> rw [e] at called <;> cases called
    · exact h.sinkExtend _
    · exact (h.sinkExtend _).raise _
    · exact h.haltExit hm
    · exact h

/-- Settles O38: the invariant is kept by the operations a step is made of (R70 to R77). -/
theorem stepKeepsInvariant : Obligations.StepKeepsInvariant := by
  intro s t h hstep
  have hm := running_of_step hstep
  have advanced : Inv (advancePc s) := h.setPc _
  cases stepResult_of_step hstep with
  | budgetSpent spent => exact h.haltBudget hm spent
  | fetchFailed left _ => exact (h.raise _).countStep left
  | unhandled fetched _ =>
    obtain ⟨⟨-, left⟩, -⟩ := fetched
    exact (advanced.dispatchUnhandled _ _ _).countStep (by rwa [dispatchUnhandled_frame])
  | ran fetched _ he =>
    obtain ⟨⟨-, left⟩, -⟩ := fetched
    obtain ⟨frame, steps⟩ := exec_frame he
    exact (advanced.exec hm he).countStep (by rwa [frame.cfg, steps])

/-! ## Faults (60_exceptions.md R136, R140) -/

/-- The address a write call reports lies outside the memory: it is the capacity, or the buffer's own address beyond it (D13). -/
theorem memSize_le_toNat_writeReport {memSize : Nat} (hsize : memSize < 2 ^ 64) (a : Word) :
    memSize ≤ (BitVec.ofNat 64 (a.toNat + (memSize - a.toNat))).toNat := by
  rw [BitVec.toNat_ofNat]
  omega

/-- Only an ECALL faults, by a write call that leaves the memory. -/
theorem exec_fault {i : Instr} {s t : State} (hs : s.stop = none) (he : exec i s = .next t) (ht : t.stop = some .fault) :
    ∃ (a : Word) (bs : List Byte), t = raise (writeReport s.cfg.memSize a.toNat) (sinkExtend bs s) := by
  cases execResult_of_exec he with
  | writesRegister _ rd v => exact nomatch hs.symm.trans ((setReg_stop rd v s).symm.trans ht)
  | jumps rd off => exact nomatch hs.symm.trans ((setReg_stop rd s.pc s).symm.trans ht)
  | calls called =>
    obtain ⟨-, -, e⟩ | ⟨-, -, -, e⟩ | ⟨-, e⟩ | ⟨-, -, e⟩ := execEcall_cases s <;> rw [e] at called <;> cases called
    · exact nomatch hs.symm.trans ht
    · exact ⟨_, _, rfl⟩
    · cases ht
    · exact nomatch hs.symm.trans ht

/-- Settles O37: the three faults of a step, each of which writes the control state and at most the sink (R136, D9, D13). -/
theorem faultsArePrecise : Obligations.FaultsArePrecise := by
  intro s t h hstep ht
  obtain ⟨running, -⟩ := h.running (running_of_step hstep)
  cases stepResult_of_step hstep with
  | budgetSpent _ => cases ht
  | fetchFailed _ _ => exact ⟨rfl, rfl, rfl, .inr (.inl ⟨rfl, rfl, rfl⟩)⟩
  | @unhandled w why fetched _ =>
    obtain ⟨-, hf⟩ := fetched
    obtain ⟨-, -, e⟩ | ⟨-, e⟩ := dispatchUnhandled_cases why w s.pc (advancePc s) <;> rw [e] at ht ⊢
    · exact nomatch running.symm.trans ht
    · exact ⟨rfl, rfl, rfl, .inl ⟨w, rfl, hf, rfl, rfl⟩⟩
  | ran _ _ he =>
    obtain ⟨a, bs, rfl⟩ := exec_fault (s := advancePc s) running he ht
    exact ⟨rfl, rfl, rfl, .inr (.inr ⟨_, rfl, memSize_le_toNat_writeReport h.sizeBound a, BitVec.add_sub_cancel _ _⟩)⟩

/-! ## Construction and reset (R25) -/

/-- Every register of a fresh machine reads 0 (D4). -/
theorem getReg_construct (r : Reg) (cfg : Config) : getReg r (State.construct cfg) = 0#64 := by
  simp [getReg, State.construct, resetRegister]

/-- A fresh machine meets the invariant (R25, D4). -/
theorem construct_inv {cfg : Config} (h : cfg.WellFormed) : Inv (State.construct cfg) :=
  ⟨construct_mem_wf cfg, nofun, h, by simp [State.construct], by simp [State.construct], Nat.zero_le _, nofun,
    by simp [State.construct, resetRegister]⟩

/-- Settles O39: the reset machine is a fresh one, with a capacity below 2^64 (D4 to D7). -/
theorem constructionMeetsInvariant : Obligations.ConstructionMeetsInvariant :=
  ⟨fun _ h => construct_inv h, construct_inv (by decide)⟩

/-- Settles O40: a fresh machine lists no byte, so every address inside the memory reads 0 (R25, D4, D5). -/
theorem resetLeaves : Obligations.ResetLeaves :=
  ⟨fun _ ha => readByte_ok ha, fun r => getReg_construct r resetConfig, rfl, rfl, rfl, rfl, rfl, rfl⟩

end Sys2Proof.Machine
end

section
/-! The whole run (40_execution_loop.md R77 to R82): it ends within its budget, it is an iteration of the core's step, and what every
step keeps holds at its end. -/

namespace Sys2Proof.Machine

/-! ## The run loop -/

/-- A Halted core stays as it is, whatever number of moves is left. -/
theorem runLoop_of_halted {s : State} (h : s.mode = .halted) (n : Nat) : runLoop n s = .next s := by
  cases n with
  | zero => rfl
  | succ n => rw [runLoop, h]

/-- A running core makes a move and the loop goes on. -/
theorem runLoop_succ {s t : State} (hstep : step s = .next t) (n : Nat) : runLoop (n + 1) s = runLoop n t := by
  rw [runLoop, running_of_step hstep]
  simp only [hstep]

/-- With more moves than budget left, the loop ends Halted within the budget (R77). -/
theorem runLoop_ends {n : Nat} {s : State} (hbudget : s.steps ≤ s.cfg.maxSteps) (hmoves : s.cfg.maxSteps < s.steps + n) :
    ∃ t, runLoop n s = .next t ∧ t.mode = .halted ∧ t.steps ≤ s.cfg.maxSteps := by
  induction n generalizing s with
  | zero => omega
  | succ n ih =>
    cases hm : s.mode with
    | halted => exact ⟨s, runLoop_of_halted hm _, hm, hbudget⟩
    | running =>
      obtain ⟨t, hstep, -⟩ := step_of_running hm
      rw [runLoop_succ hstep]
      by_cases left : s.steps < s.cfg.maxSteps
      · have cfg := (step_frame hstep).cfg
        have steps : t.steps = s.steps + 1 := (step_steps hstep).trans (if_pos left)
        rw [← cfg] at hmoves left ⊢
        exact ih (by omega) (by omega)
      · rw [step_of_budget_spent hm (Nat.not_lt.1 left)] at hstep
        cases hstep
        exact ⟨_, runLoop_of_halted rfl n, rfl, hbudget⟩

/-- What every step keeps, the loop keeps. -/
theorem runLoop_keeps {P : State → Prop} (hP : ∀ s t, P s → step s = .next t → P t) {n : Nat} {s t : State} (hs : P s)
    (h : runLoop n s = .next t) : P t := by
  induction n generalizing s with
  | zero =>
    cases h
    exact hs
  | succ n ih =>
    cases hm : s.mode with
    | halted =>
      rw [runLoop_of_halted hm] at h
      cases h
      exact hs
    | running =>
      obtain ⟨u, hstep, -⟩ := step_of_running hm
      rw [runLoop_succ hstep] at h
      exact ih (hP s u hs hstep) h

/-- The host's iteration makes one move and goes on. -/
theorem core_run_succ {M : Host.Core} {s t : M.State} (hstep : M.step s = .next t) (k : Nat) : M.run (k + 1) s = M.run k t := by
  rw [Host.Core.run, hstep]

/-- The loop is the host's iteration of the core's step, for some number of the moves it may make. -/
theorem runLoop_eq_core_run (n : Nat) (s : State) : ∃ k ≤ n, Host.Core.run core k s = runLoop n s := by
  induction n generalizing s with
  | zero => exact ⟨0, le_rfl, rfl⟩
  | succ n ih =>
    cases hm : s.mode with
    | halted => exact ⟨0, Nat.zero_le _, (runLoop_of_halted hm _).symm⟩
    | running =>
      obtain ⟨t, hstep, -⟩ := step_of_running hm
      obtain ⟨k, hk, e⟩ := ih t
      exact ⟨k + 1, Nat.succ_le_succ hk, (core_run_succ (M := core) hstep k).trans (e.trans (runLoop_succ hstep n).symm)⟩

/-! ## Run -/

/-- Run on a running core is the loop from the start state (R77). -/
theorem run_of_running {s : State} (hm : s.mode = .running) (maxSteps : Nat) :
    run maxSteps s = runLoop (maxSteps + 1) (startRun maxSteps s) := by
  rw [run, hm]

/-- Run answers a state from a running core alone (D14). -/
theorem running_of_run {maxSteps : Nat} {s t : State} (h : run maxSteps s = .next t) : s.mode = .running := by
  cases hm : s.mode with
  | running => rfl
  | halted =>
    rw [run, hm] at h
    cases h

/-- Settles O41: Run has one move more than its budget (R77). -/
theorem runAlwaysEnds : Obligations.RunAlwaysEnds := by
  intro maxSteps s hm
  rw [run_of_running hm]
  exact runLoop_ends (s := startRun maxSteps s) (Nat.zero_le _) (by simp)

/-- Settles O42: the loop is the host's iteration, and it ends Halted (R77). -/
theorem runFollowsCoreSteps : Obligations.RunFollowsCoreSteps := by
  intro maxSteps s hm
  obtain ⟨t, hrun, halted, -⟩ := runAlwaysEnds maxSteps s hm
  obtain ⟨k, hk, e⟩ := runLoop_eq_core_run (maxSteps + 1) (startRun maxSteps s)
  exact ⟨k, t, hk, e.trans ((run_of_running hm maxSteps).symm.trans hrun), halted, hrun⟩

/-- Settles O43: with a budget of 0 the first move ends the run (D20). -/
theorem runOfZeroFetchesNothing : Obligations.RunOfZeroFetchesNothing := by
  intro s hm
  have spent : step (startRun 0 s) = .next (haltBudget (startRun 0 s)) := step_of_budget_spent hm le_rfl
  exact ⟨_, (run_of_running hm 0).trans (runLoop_succ spent 0), rfl⟩

/-- Settles O44: every step keeps the frame, and sinks grow by what is appended (R76). -/
theorem runKeepsMemory : Obligations.RunKeepsMemory := by
  intro maxSteps s t h
  rw [run_of_running (running_of_run h)] at h
  have keeps (u v : State) (hu : RunFrame (startRun maxSteps s) u) (hstep : step u = .next v) :
      RunFrame (startRun maxSteps s) v := hu.trans (step_frame hstep).toRunFrame
  obtain ⟨mem, cfg, sinkGrows⟩ := runLoop_keeps keeps (.refl _) h
  have unchangedBytes (a : Nat) : readByte a t = readByte a s := by
    simp only [readByte, mem, cfg, startRun_mem, startRun_cfg]
  exact ⟨mem, unchangedBytes, cfg, sinkGrows⟩

/-- The start state of a run: no step is counted, whatever the budget (R77). -/
theorem Inv.startRun {s : State} (h : Inv s) (hm : s.mode = .running) (maxSteps : Nat) : Inv (startRun maxSteps s) := by
  obtain ⟨stop, -⟩ := h.running hm
  exact ⟨h.memWf, h.memWithin, h.sizeBound, h.haltedIffStopped, h.reportIffFault, Nat.zero_le _,
    fun cut => (nomatch stop.symm.trans cut), h.zeroCell⟩

/-- A Halted core that meets the invariant has no report exactly when no fault stopped it (R17, R165). -/
theorem Inv.report_eq_none_iff {s : State} (h : Inv s) (halted : s.mode = .halted) :
    s.report = none ↔ Completed s ∨ CutShort s := by
  have noReport : s.report = none ↔ s.stop ≠ some .fault := by rw [← not_iff_not, not_not]; exact h.reportIffFault
  rw [noReport]
  cases hstop : s.stop with
  | none => exact absurd hstop (h.haltedIffStopped.1 halted)
  | some cause =>
    cases cause with
    | exit => exact ⟨fun _ => .inl ⟨halted, hstop⟩, fun _ => nofun⟩
    | budget => exact ⟨fun _ => .inr ⟨halted, hstop⟩, fun _ => nofun⟩
    | fault => simp [Completed, CutShort, hstop]

/-- Settles O45: every step keeps the invariant, and the run ends Halted (R17, R77). -/
theorem reportIsNoneForExitAndBudget : Obligations.ReportIsNoneForExitAndBudget := by
  intro maxSteps s t h hrun
  have hm := running_of_run hrun
  obtain ⟨u, hends, halted, -⟩ := runAlwaysEnds maxSteps s hm
  obtain rfl : u = t := Host.Outcome.next.inj (hends.symm.trans hrun)
  rw [run_of_running hm] at hrun
  have inv : Inv u := runLoop_keeps stepKeepsInvariant (h.startRun hm maxSteps) hrun
  exact ⟨inv, inv.report_eq_none_iff halted⟩

end Sys2Proof.Machine
end

section
/-! The image loader (70_reset_and_hazards.md R166 to R175) and the boot sequence (R162): a field of the buffer as a number, one segment
placed, the program-header table entry by entry, and the launch state. -/

namespace Sys2Proof.Machine

/-! ## The buffer's bytes and fields (R168) -/

/-- Byte `i` of a slice is byte `o + i` of the buffer. -/
theorem getElem_take_drop {buf : List Byte} {o w i : Nat} (h : i < ((buf.drop o).take w).length) :
    ((buf.drop o).take w)[i] = buf.getD (o + i) 0#8 := by
  rw [List.length_take, List.length_drop] at h
  rw [List.getElem_take, List.getElem_drop, List.getD_eq_getElem _ _ (by omega)]

/-- A little-endian number is the sum of its bytes, each weighed by its place. -/
theorem littleEndian_eq_sum (bs : List Byte) :
    littleEndian bs = ∑ i ∈ Finset.range bs.length, (bs.getD i 0#8).toNat * 256 ^ i := by
  induction bs with
  | nil => rfl
  | cons b bs ih =>
    rw [littleEndian, List.length_cons, Finset.sum_range_succ', ih, Finset.mul_sum, add_comm]
    congr 1
    · exact Finset.sum_congr rfl fun i _ => by rw [List.getD_cons_succ, pow_succ]; ring
    · rw [List.getD_cons_zero, pow_zero, mul_one]

/-- The little-endian sum of the `w` bytes of the buffer from offset `o`. -/
def fieldSum (buf : List Byte) (o w : Nat) : Nat := ∑ i ∈ Finset.range w, (buf.getD (o + i) 0#8).toNat * 256 ^ i

/-- A field inside the buffer is the little-endian sum of its bytes (R168). -/
theorem field_inside {buf : List Byte} {o w : Nat} (h : o + w ≤ buf.length) : field buf o w = some (fieldSum buf o w) := by
  obtain ⟨-, e⟩ | ⟨hout, -⟩ := slice_cases buf o w
  · rw [field, e, Option.map_some, littleEndian_eq_sum, length_slice e]
    refine congrArg some (Finset.sum_congr rfl fun i hi => ?_)
    have hi : i < ((buf.drop o).take w).length := by rw [length_slice e]; exact Finset.mem_range.1 hi
    rw [List.getD_eq_getElem _ _ hi, getElem_take_drop hi]
  · omega

/-- A field that passes the end of the buffer is not read (R174). -/
theorem field_outside {buf : List Byte} {o w : Nat} (h : buf.length < o + w) : field buf o w = none := by
  obtain ⟨hin, -⟩ | ⟨-, e⟩ := slice_cases buf o w
  · omega
  · rw [field, e, Option.map_none]

/-! ## One segment (R172) -/

/-- A block write of a slice of the buffer places the segment. -/
theorem segmentPlaced_memSetBlock {buf : List Byte} {off n : Nat} (va : Nat) {m : Memory} (hm : m.wf) (h : off + n ≤ buf.length) :
    SegmentPlaced buf off va n m (memSetBlock m va ((buf.drop off).take n)) := by
  have hlen : ((buf.drop off).take n).length = n := by
    rw [List.length_take, List.length_drop]
    omega
  refine ⟨fun i hi => ?_, fun a ha => memGet_memSetBlock_outside m _ (by rwa [hlen])⟩
  have hi : i < ((buf.drop off).take n).length := by rwa [hlen]
  rw [memGet_memSetBlock_inside hm va i _ hi, getElem_take_drop hi]

/-- A source range outside the buffer, checked first (R174, D19). -/
theorem copySegment_source_outside {size : Nat} {buf : List Byte} {off va n : Nat} {m : Memory} (h : buf.length < off + n) :
    copySegment size buf off va n m = .error .malformedImage := by
  obtain ⟨-, e⟩ | ⟨hin, -⟩ | ⟨hin, -⟩ := copySegment_cases size buf off va n m
  · exact e
  · omega
  · omega

/-- A target outside the memory (R172, D18). -/
theorem copySegment_target_outside {size : Nat} {buf : List Byte} {off va n : Nat} {m : Memory} (h : off + n ≤ buf.length)
    (hv : size < va + n) : copySegment size buf off va n m = .error (.outOfBounds ⟨va, n⟩) := by
  obtain ⟨hout, -⟩ | ⟨-, -, e⟩ | ⟨-, hin, -⟩ := copySegment_cases size buf off va n m
  · omega
  · exact e
  · omega

/-- A segment that fits is copied (R172). -/
theorem copySegment_fits {size : Nat} {buf : List Byte} {off va n : Nat} {m : Memory} (h : off + n ≤ buf.length)
    (hv : va + n ≤ size) : copySegment size buf off va n m = .ok (memSetBlock m va ((buf.drop off).take n)) := by
  obtain ⟨hout, -⟩ | ⟨-, hout, -⟩ | ⟨-, -, e⟩ := copySegment_cases size buf off va n m
  · omega
  · omega
  · exact e

/-- Settles O54: the copy checks its source, then its target, then writes one block (R172, R174, D18, D19). -/
theorem segmentCopyPlacesItsBytes : Obligations.SegmentCopyPlacesItsBytes := by
  intro size buf off va n m hm
  exact ⟨copySegment_source_outside, fun h hv => ⟨_, copySegment_target_outside h hv⟩,
    fun h hv => ⟨_, copySegment_fits h hv, segmentPlaced_memSetBlock va hm h⟩⟩

/-! ## The raw image (R167) -/

/-- Settles O46: the whole buffer is one block write at the raw base (R167, D18, D19). -/
theorem rawImageLoadsAtBase : Obligations.RawImageLoadsAtBase := by
  intro size buf m hm hmagic
  have raw : load size buf m = loadRaw size buf m := if_neg fun h => hmagic (beq_iff_eq.1 h)
  rw [raw, loadRaw]
  obtain ⟨hin, e⟩ | ⟨hout, e⟩ := writeBlockAt_cases size m rawBase buf <;> rw [e]
  · refine ⟨fun h => absurd h (Nat.not_lt.2 hin), fun _ => ⟨_, rfl, fun i hi => ?_, fun a ha => ?_⟩⟩
    · exact memGet_memSetBlock_inside hm rawBase i buf hi
    · exact memGet_memSetBlock_outside m buf ha
  · exact ⟨fun _ => ⟨_, rfl⟩, fun h => absurd h (Nat.not_le.2 hout)⟩

/-! ## The program-header table (R170, R171) -/

section Table

variable {size : Nat} {buf : List Byte} {h : ImageHeader} {k : Nat} {m : Memory}

/-- An entry that cannot be read ends the load with the memory so far (R174). -/
theorem loadTable_succ_malformed (n : Nat) (hp : parseProgramHeader buf (h.phoff + k * h.phentsize) = none) :
    loadTable size buf h (n + 1) k m = .failed .malformedImage m := by
  rw [loadTable, hp]

/-- An entry that is not loadable is skipped (R170). -/
theorem loadTable_succ_skipped (n : Nat) (hp : parseProgramHeader buf (h.phoff + k * h.phentsize) = some .skipped) :
    loadTable size buf h (n + 1) k m = loadTable size buf h n (k + 1) m := by
  rw [loadTable, hp]

/-- A segment that is copied hands its memory to the next entry (R172). -/
theorem loadTable_succ_copied (n : Nat) {off va len : Nat} {m' : Memory}
    (hp : parseProgramHeader buf (h.phoff + k * h.phentsize) = some (.loadable off va len))
    (hc : copySegment size buf off va len m = .ok m') :
    loadTable size buf h (n + 1) k m = loadTable size buf h n (k + 1) m' := by
  rw [loadTable, hp]
  simp only [hc]

/-- A copy that fails ends the load with the memory so far (R174). -/
theorem loadTable_succ_failed (n : Nat) {off va len : Nat} {e : LoadError}
    (hp : parseProgramHeader buf (h.phoff + k * h.phentsize) = some (.loadable off va len))
    (hc : copySegment size buf off va len m = .error e) : loadTable size buf h (n + 1) k m = .failed e m := by
  rw [loadTable, hp]
  simp only [hc]

end Table

/-- Settles O55: by induction on the first entries, each of which ends the load or hands a memory on (R170, D19). -/
theorem programHeaderTableIsSequential : Obligations.ProgramHeaderTableIsSequential := by
  intro size buf h n j k m
  induction n generalizing k m with
  | zero => rw [Nat.zero_add, loadTable, Nat.add_zero]
  | succ n ih =>
    rw [Nat.succ_add, Nat.add_comm n 1, ← Nat.add_assoc k 1 n]
    cases hp : parseProgramHeader buf (h.phoff + k * h.phentsize) with
    | none => rw [loadTable_succ_malformed _ hp, Nat.add_comm 1 n, loadTable_succ_malformed _ hp]
    | some entry =>
      cases entry with
      | skipped => rw [loadTable_succ_skipped _ hp, ih, Nat.add_comm 1 n, loadTable_succ_skipped _ hp]
      | loadable off va len =>
        cases hc : copySegment size buf off va len m with
        | ok m' => rw [loadTable_succ_copied _ hp hc, ih, Nat.add_comm 1 n, loadTable_succ_copied _ hp hc]
        | error e => rw [loadTable_succ_failed _ hp hc, Nat.add_comm 1 n, loadTable_succ_failed _ hp hc]

/-! ## One entry of the table -/

section Entry

variable {buf : List Byte} {base : Nat}

/-- A type outside the buffer (R174). -/
theorem parseProgramHeader_type_outside (h : buf.length < base + 4) : parseProgramHeader buf base = none := by
  rw [parseProgramHeader, field_outside h]

/-- An entry whose type is not 1 (R170). -/
theorem parseProgramHeader_skipped (h : base + 4 ≤ buf.length) (notLoadable : fieldSum buf base 4 ≠ 1) :
    parseProgramHeader buf base = some .skipped := by
  rw [parseProgramHeader, field_inside h]
  exact if_neg notLoadable

/-- A loadable entry that is cut by the end of the buffer: its last field is (R171, R174). -/
theorem parseProgramHeader_cut (h : base + 4 ≤ buf.length) (loadable : fieldSum buf base 4 = 1) (out : buf.length < base + 40) :
    parseProgramHeader buf base = none := by
  have fileSize : field buf (base + 32) 8 = none := field_outside out
  rw [parseProgramHeader, field_inside h, loadable]
  simp [loadableType, fileSize]

/-- A loadable entry inside the buffer (R171). -/
theorem parseProgramHeader_loadable (h : base + 40 ≤ buf.length) (loadable : fieldSum buf base 4 = 1) :
    parseProgramHeader buf base =
      some (.loadable (fieldSum buf (base + 8) 8) (fieldSum buf (base + 16) 8) (fieldSum buf (base + 32) 8)) := by
  have type : field buf base 4 = some 1 := by rw [field_inside (by omega), loadable]
  have fileOffset := field_inside (buf := buf) (o := base + 8) (w := 8) (by omega)
  have virtualAddress := field_inside (buf := buf) (o := base + 16) (w := 8) (by omega)
  have fileSize := field_inside (buf := buf) (o := base + 32) (w := 8) (by omega)
  simp only [parseProgramHeader, type, loadableType, fileOffset, virtualAddress, fileSize, if_pos]

end Entry

/-- Settles O49: the entry's type and fields as numbers, and what each kind of entry does (R170 to R174, D19). -/
theorem programHeadersReadInOrder : Obligations.ProgramHeadersReadInOrder := by
  intro size buf h n k m
  refine ⟨rfl, ?_⟩
  rintro base rfl
  refine ⟨fun out => loadTable_succ_malformed n (parseProgramHeader_type_outside out), ?_⟩
  rintro type inside rfl
  refine ⟨fun notLoadable => loadTable_succ_skipped n (parseProgramHeader_skipped inside notLoadable),
    fun loadable out => loadTable_succ_malformed n (parseProgramHeader_cut inside loadable out), ?loadable⟩
  case loadable =>
    rintro loadable inside40 off va len rfl rfl rfl
    have parsed := parseProgramHeader_loadable inside40 loadable
    exact ⟨parsed, fun m' copied => loadTable_succ_copied n parsed copied, fun e failed => loadTable_succ_failed n parsed failed⟩

/-! ## Structured images (R166, R168 to R173) -/

/-- A buffer that begins with the magic is a structured image (R166). -/
theorem load_of_magic {buf : List Byte} (hmagic : buf.take 4 = [0x7F#8, 0x45#8, 0x4C#8, 0x46#8]) (size : Nat) (m : Memory) :
    load size buf m = loadStructured size buf m :=
  if_pos (beq_iff_eq.2 hmagic)

/-- A header that was read leads to the table (R169, R170). -/
theorem load_of_header {buf : List Byte} {h : ImageHeader} (hmagic : buf.take 4 = [0x7F#8, 0x45#8, 0x4C#8, 0x46#8])
    (hparse : parseHeader buf = some h) (size : Nat) (m : Memory) : load size buf m = loadTable size buf h h.phnum 0 m := by
  rw [load_of_magic hmagic, loadStructured, hparse]

/-- A header that passes the end of the buffer is malformed: its last field is at 0x38 (R169, R174). -/
theorem parseHeader_cut {buf : List Byte} (h : buf.length < 0x3A) : parseHeader buf = none := by
  have phnum : field buf 0x38 2 = none := field_outside h
  simp [parseHeader, phnum]

/-- The header of a buffer that holds it (R169). -/
theorem parseHeader_inside {buf : List Byte} (h : 0x3A ≤ buf.length) :
    parseHeader buf = some ⟨fieldSum buf 0x18 8, fieldSum buf 0x20 8, fieldSum buf 0x36 2, fieldSum buf 0x38 2⟩ := by
  have entry := field_inside (buf := buf) (o := 0x18) (w := 8) (by omega)
  have phoff := field_inside (buf := buf) (o := 0x20) (w := 8) (by omega)
  have phentsize := field_inside (buf := buf) (o := 0x36) (w := 2) (by omega)
  have phnum := field_inside (buf := buf) (o := 0x38) (w := 2) (by omega)
  simp only [parseHeader, entry, phoff, phentsize, phnum]

/-- Settles O47: the header's four fields as numbers, and the table after it (R169, D19). -/
theorem structuredHeaderFields : Obligations.StructuredHeaderFields := by
  intro size buf m hmagic
  refine ⟨fun out => ?_, fun inside => ?_⟩
  · rw [load_of_magic hmagic, loadStructured, parseHeader_cut out]
  · have parsed := parseHeader_inside inside
    exact ⟨_, parsed, rfl, rfl, rfl, rfl, load_of_header hmagic parsed size m⟩

/-- A loadable entry that is the last of the table: the load ends as the copy of its segment does (R172 to R174, D18, D19). -/
theorem loadTable_last_segment {size : Nat} {buf : List Byte} {h : ImageHeader} {k off va n : Nat} {m : Memory} (hm : m.wf)
    (hp : parseProgramHeader buf (h.phoff + k * h.phentsize) = some (.loadable off va n)) :
    (buf.length < off + n → loadTable size buf h 1 k m = .failed .malformedImage m) ∧
    (off + n ≤ buf.length → size < va + n → ∃ e, loadTable size buf h 1 k m = .failed (.outOfBounds e) m) ∧
    (off + n ≤ buf.length → va + n ≤ size → ∃ m', loadTable size buf h 1 k m = .loaded (BitVec.ofNat 64 h.entry) m' ∧
      SegmentPlaced buf off va n m m') :=
  ⟨fun out => loadTable_succ_failed 0 hp (copySegment_source_outside out),
    fun source out => ⟨_, loadTable_succ_failed 0 hp (copySegment_target_outside source out)⟩,
    fun source target => ⟨_, loadTable_succ_copied 0 hp (copySegment_fits source target), segmentPlaced_memSetBlock va hm source⟩⟩

/-- Settles O48: the one entry is the first and the last of the table (R170 to R173, D18, D19). -/
theorem oneSegmentImageLoads : Obligations.OneSegmentImageLoads := by
  intro size buf m h off va n hm hmagic hparse hnum hentry
  rw [load_of_header hmagic hparse, hnum]
  exact loadTable_last_segment hm (by rwa [Nat.zero_mul, Nat.add_zero])

/-- Settles O56: the second entry, the last of the table, runs on the memory the first leaves (R170 to R174, D18, D19). -/
theorem twoSegmentImageLoads : Obligations.TwoSegmentImageLoads := by
  intro size buf m h off₁ va₁ n₁ off₂ va₂ n₂ hm hmagic hparse hnum hentry₁ hentry₂ source₁ target₁
  have firstEntry : parseProgramHeader buf (h.phoff + 0 * h.phentsize) = some (.loadable off₁ va₁ n₁) := by
    rwa [Nat.zero_mul, Nat.add_zero]
  have secondEntry : parseProgramHeader buf (h.phoff + (0 + 1) * h.phentsize) = some (.loadable off₂ va₂ n₂) := by
    rwa [Nat.zero_add, Nat.one_mul]
  rw [load_of_header hmagic hparse, hnum, loadTable_succ_copied 1 firstEntry (copySegment_fits source₁ target₁)]
  exact ⟨_, segmentPlaced_memSetBlock va₁ hm source₁, loadTable_last_segment (memSetBlock_wf hm va₁ _) secondEntry⟩

/-! ## The boot sequence (R162) -/

/-- A memory in canonical form and inside the capacity may take the place of another. -/
theorem Inv.withMemory {s : State} (h : Inv s) {m : Memory} (hm : m.wf) (hw : m.within s.cfg.memSize) : Inv { s with mem := m } :=
  ⟨hm, hw, h.sizeBound, h.haltedIffStopped, h.reportIffFault, h.stepsBound, h.budgetSpent, h.zeroCell⟩

/-- Settles O50: the launch state is a fresh machine with the loaded memory and the entry in the pc (R162, D4). -/
theorem bootLeavesLaunchState : Obligations.BootLeavesLaunchState := by
  intro cfg buf s hcfg hboot
  obtain ⟨wf, within⟩ := load_keeps (size := cfg.memSize) (buf := buf) memory_wf_nil nofun
  rw [boot] at hboot
  cases hload : load cfg.memSize buf [] with
  | failed why m =>
    rw [hload] at hboot
    cases hboot
  | loaded entry m =>
    rw [hload] at hboot wf within
    cases hboot
    exact ⟨((construct_inv hcfg).withMemory wf within).setPc entry, rfl, rfl, rfl, rfl, rfl, rfl, rfl,
      fun r => getReg_construct r cfg⟩

end Sys2Proof.Machine
end
